-- ==== Sys2Proof/Word.lean ====
section
/-! DEFINITION. The words of MUCGEN: the command word, pin identifiers and tick counts (00_scope.md R13, R16). -/

namespace Sys2Proof

/-- A command word: 32 bits, bit 31 the most significant (00_scope.md R16, 20_memory.md R62). -/
abbrev Word := BitVec 32

/-- A pin identifier: 8 bits, opaque (PW = 8, 00_scope.md R13). -/
abbrev Pin := BitVec 8

/-- A tick count or tick counter: 20 bits unsigned (TW = 20, 00_scope.md R13). -/
abbrev Ticks := BitVec 20

end Sys2Proof
end

