-- ==== Sys2Proof/Syntax.lean ====
section
/-! DEFINITION. The commands of MUCGEN, one constructor for each row of spec/opcode_table.json. -/

namespace Sys2Proof

/-- One (pin, frequency) pair of INIT's operand list: the meaning of one payload word (30_encoding.md R77). -/
structure ChannelInit where
  pin : Pin
  /-- In hertz, −524288 to 524287 (R75). -/
  freq : Int
deriving DecidableEq, Repr

/-- A command (30_encoding.md R72, R80). Operands are the numbers the decoder hands over (R78). -/
inductive Instr where
  /-- NOP, OP = 0000 (41_control_commands.md R111). -/
  | nop
  /-- INIT, OP = 0001, with its COUNT payload pairs (R112). COUNT is the length of the list. -/
  | init (pairs : List ChannelInit)
  /-- SETF idx, freq, OP = 0010 (R119). -/
  | setf (idx : Int) (freq : Int)
  /-- EN idx, OP = 0011 (R126). -/
  | en (idx : Int)
  /-- DIS idx, OP = 0100 (R128). -/
  | dis (idx : Int)
  /-- The reserved opcodes 0101 to 1111 (R130). -/
  | rsvd5
  | rsvd6
  | rsvd7
  | rsvd8
  | rsvd9
  | rsvdA
  | rsvdB
  | rsvdC
  | rsvdD
  | rsvdE
  | rsvdF
deriving DecidableEq, Repr

/-- The opcode of a command, `w[31:28]` of its first word (30_encoding.md R72). -/
def Instr.opcode : Instr → BitVec 4
  | .nop => 0x0#4
  | .init _ => 0x1#4
  | .setf _ _ => 0x2#4
  | .en _ => 0x3#4
  | .dis _ => 0x4#4
  | .rsvd5 => 0x5#4
  | .rsvd6 => 0x6#4
  | .rsvd7 => 0x7#4
  | .rsvd8 => 0x8#4
  | .rsvd9 => 0x9#4
  | .rsvdA => 0xA#4
  | .rsvdB => 0xB#4
  | .rsvdC => 0xC#4
  | .rsvdD => 0xD#4
  | .rsvdE => 0xE#4
  | .rsvdF => 0xF#4

/-- How many command words a command has: one, or 1 + COUNT for INIT (30_encoding.md R70). -/
def Instr.wordCount : Instr → Nat
  | .nop => 1
  | .init pairs => 1 + pairs.length
  | .setf _ _ => 1
  | .en _ => 1
  | .dis _ => 1
  | .rsvd5 => 1
  | .rsvd6 => 1
  | .rsvd7 => 1
  | .rsvd8 => 1
  | .rsvd9 => 1
  | .rsvdA => 1
  | .rsvdB => 1
  | .rsvdC => 1
  | .rsvdD => 1
  | .rsvdE => 1
  | .rsvdF => 1

end Sys2Proof
end

