-- ==== Sys2Proof/WellFormed.lean ====
section
/-! DEFINITION. Which commands the encoding can express (30_encoding.md R73 to R77). -/

namespace Sys2Proof

/-- An index the 8-bit signed IDX field can hold: −128 ≤ i ≤ 127 (30_encoding.md R74). -/
def idxEncodable (i : Int) : Bool := decide (-128 ≤ i ∧ i ≤ 127)

/-- A frequency the 20-bit signed FREQ field can hold: −524288 ≤ f ≤ 524287 (30_encoding.md R75). -/
def freqEncodable (f : Int) : Bool := decide (-524288 ≤ f ∧ f ≤ 524287)

/-- A command the encoding can express: COUNT ≤ 255 (R73), every index and frequency in its field's range. -/
def Instr.wellFormed : Instr → Bool
  | .nop => true
  | .init pairs => decide (pairs.length ≤ 255) && pairs.all (fun x => freqEncodable x.freq)
  | .setf i f => idxEncodable i && freqEncodable f
  | .en i => idxEncodable i
  | .dis i => idxEncodable i
  | .rsvd5 => true
  | .rsvd6 => true
  | .rsvd7 => true
  | .rsvd8 => true
  | .rsvd9 => true
  | .rsvdA => true
  | .rsvdB => true
  | .rsvdC => true
  | .rsvdD => true
  | .rsvdE => true
  | .rsvdF => true

end Sys2Proof
end

