-- ==== Sys2Proof/Decode.lean ====
section
/-! DEFINITION. The command decoder and, after it, the encoder (30_encoding.md). -/

namespace Sys2Proof

/-- OP = `w[31:28]` (30_encoding.md R71). -/
def opOf (w : Word) : BitVec 4 := w.extractLsb' 28 4

/-- COUNT = `w[7:0]` of the INIT header (R73). -/
def countOf (w : Word) : BitVec 8 := w.extractLsb' 0 8

/-- IDX = `sext_8(w[27:20])` of SETF, EN and DIS (R74). -/
def idxOf (w : Word) : Int := (w.extractLsb' 20 8).toInt

/-- The 20 bits of FREQ, `w[19:0]` (R75). -/
def freqBitsOf (w : Word) : BitVec 20 := w.extractLsb' 0 20

/-- FREQ = `sext_20(w[19:0])` of SETF and of a payload word (R75). -/
def freqOf (w : Word) : Int := (freqBitsOf w).toInt

/-- PIN = `w[27:20]` of a payload word (R76). -/
def pinOf (w : Word) : Pin := w.extractLsb' 20 8

/-- What a word taken in mode IDLE begins (R78, R79). -/
inductive FirstWord where
  /-- A command that is complete with this word. -/
  | command (i : Instr)
  /-- An INIT header with COUNT = n ≥ 1: n payload words follow. -/
  | initHeader (n : BitVec 8)
deriving DecidableEq, Repr

/-- The IDLE half of the decoder (R78): the opcode chooses the command and no other bit does (R71). The last arm is
the one value left, 1111. -/
def decodeFirst (w : Word) : FirstWord :=
  match opOf w with
  | 0x0#4 => .command .nop
  | 0x1#4 => if countOf w = 0 then .command (.init []) else .initHeader (countOf w)
  | 0x2#4 => .command (.setf (idxOf w) (freqOf w))
  | 0x3#4 => .command (.en (idxOf w))
  | 0x4#4 => .command (.dis (idxOf w))
  | 0x5#4 => .command .rsvd5
  | 0x6#4 => .command .rsvd6
  | 0x7#4 => .command .rsvd7
  | 0x8#4 => .command .rsvd8
  | 0x9#4 => .command .rsvd9
  | 0xA#4 => .command .rsvdA
  | 0xB#4 => .command .rsvdB
  | 0xC#4 => .command .rsvdC
  | 0xD#4 => .command .rsvdD
  | 0xE#4 => .command .rsvdE
  | _ => .command .rsvdF

/-- One payload word: its pin and its frequency (R77). -/
def decodePayload (w : Word) : ChannelInit := { pin := pinOf w, freq := freqOf w }

/-- Why a list of words holds no whole command at its head. Neither is an illegal encoding: there is none (R81). -/
inductive DecodeStop where
  /-- There is no word. -/
  | noWord
  /-- An INIT header is not followed by COUNT payload words yet. -/
  | payloadIncomplete
deriving DecidableEq, Repr

/-- The command at the head of a word stream, and the words after it (R70, R77, R79). -/
def decode : List Word → Except DecodeStop (Instr × List Word)
  | [] => .error .noWord
  | w :: ws =>
    match decodeFirst w with
    | .command i => .ok (i, ws)
    | .initHeader n =>
      if n.toNat ≤ ws.length then .ok (.init ((ws.take n.toNat).map decodePayload), ws.drop n.toNat)
      else .error .payloadIncomplete

/-- The payload word of one pair, `p·2^20 + (f mod 2^20)`, ignored bits 0 (R84). -/
def encodePayload (x : ChannelInit) : Word := 0x0#4 ++ x.pin ++ BitVec.ofInt 20 x.freq

/-- A word of format N: the opcode and 28 ignored bits, written 0 (R71, R84). -/
def encodeN (op : BitVec 4) : Word := op ++ 0x0#28

/-- A word of format I: opcode, IDX, ignored bits 0 (R71, R84). -/
def encodeI (op : BitVec 4) (i : Int) : Word := op ++ BitVec.ofInt 8 i ++ 0x0#20

/-- The INIT header with COUNT = n: opcode, ignored bits 0, COUNT (R71, R84). -/
def encodeHeader (n : BitVec 8) : Word := 0x1#4 ++ 0x0#20 ++ n

/-- A word of format F: opcode, IDX, FREQ (R71, R84). -/
def encodeF (op : BitVec 4) (i f : Int) : Word := op ++ BitVec.ofInt 8 i ++ BitVec.ofInt 20 f

/-- The canonical words of a command, ignored bits 0 (R71, R84). R84 gives words to operands in range only: DESIGN CHOICE
(log 21), an operand out of its field's range is written modulo the field, and COUNT is the number of pairs modulo 2^8.
`Instr.wellFormed` says which commands are in range. -/
def encode : Instr → List Word
  | .nop => [encodeN 0x0#4]
  | .init pairs => encodeHeader (BitVec.ofNat 8 pairs.length) :: pairs.map encodePayload
  | .setf i f => [encodeF 0x2#4 i f]
  | .en i => [encodeI 0x3#4 i]
  | .dis i => [encodeI 0x4#4 i]
  | .rsvd5 => [encodeN 0x5#4]
  | .rsvd6 => [encodeN 0x6#4]
  | .rsvd7 => [encodeN 0x7#4]
  | .rsvd8 => [encodeN 0x8#4]
  | .rsvd9 => [encodeN 0x9#4]
  | .rsvdA => [encodeN 0xA#4]
  | .rsvdB => [encodeN 0xB#4]
  | .rsvdC => [encodeN 0xC#4]
  | .rsvdD => [encodeN 0xD#4]
  | .rsvdE => [encodeN 0xE#4]
  | .rsvdF => [encodeN 0xF#4]

/-- The command words of an instruction given as one number (log 14): the first word is bits 31..0, payload word j is
bits 32(j+2)−1 .. 32(j+1), and every bit from `nbits` up is 0. A word crosses the command port whole (20_memory.md
R68), so there is no byte order to choose. -/
def tableWords (nbits w : Nat) : List Word :=
  let v := w % 2 ^ nbits
  let first : Word := BitVec.ofNat 32 v
  match decodeFirst first with
  | .command _ => [first]
  | .initHeader n => first :: (List.range n.toNat).map (fun j => BitVec.ofNat 32 (v >>> (32 * (j + 1))))

/-- The command the decoder reads from an instruction numbered as spec/opcode_table.json numbers its bits. -/
def decodeTableWord (nbits w : Nat) : Option Instr :=
  match decode (tableWords nbits w) with
  | .ok (i, _) => some i
  | .error _ => none

end Sys2Proof
end

