-- ==== Sys2Proof/Config.lean ====
section
/-! DEFINITION. The implementation parameters of a block instance (00_scope.md R10 to R12) and the one value the spec
leaves open (40_tick_converter.md R101). -/

namespace Sys2Proof

/-- The configuration constants of one block instance: CAP (R10), F_MASTER (R11), F_MIN (R12), each with the range the
spec gives it. An instance outside these ranges cannot be built, so no statement needs a premise about them. -/
structure Params where
  /-- CAP, the fixed maximum capacity of the channel bank. -/
  cap : Nat
  /-- F_MASTER, the nominal number of tick events per second. -/
  fMaster : Nat
  /-- F_MIN, the lowest frequency SETF accepts. -/
  fMin : Nat
  capRange : 1 ≤ cap ∧ cap ≤ 127
  fMasterRange : 1 ≤ fMaster ∧ fMaster ≤ 1000000
  fMinRange : 1 ≤ fMin ∧ fMin ≤ 524287
deriving DecidableEq, Repr

/-- The defaults of 00_scope.md section 4: CAP = 7, F_MIN = 60, and F_MASTER = 8000, the value of the spec's test
vectors. DESIGN CHOICE (log 1): they are the parameters of `State.reset` and of nothing else. -/
def Params.default : Params where
  cap := 7
  fMaster := 8000
  fMin := 60
  capRange := by decide
  fMasterRange := by decide
  fMinRange := by decide

namespace Config

/-- The converter's value at a frequency f ≤ 0, which the spec does not give (40_tick_converter.md R101,
93_implementation_defined.md U8). A FREE VALUE (log 6): no proof can see it. INIT and SETF never ask for it. -/
opaque ticksForNonPositive : Int → Nat → Nat

end Config

end Sys2Proof
end

