-- ==== Sys2Proof/Machine/State.lean ====
section
/-! DEFINITION. The state of the block (10_state.md), its input and output alphabets (00_scope.md R14), its reset
values (10_state.md R44), and the reasons a step could stop: none (60_exceptions.md R160). -/

namespace Sys2Proof.Machine

/-- An output level (00_scope.md R14, R17). -/
inductive Level where
  | low
  | high
deriving DecidableEq, Repr

/-- One record of the channel bank (10_state.md R20, R24 to R28). -/
structure Channel where
  /-- Opaque pin identifier (R24). -/
  pin : Pin
  /-- Half-period tick count; 0 means no valid frequency (R25). -/
  tph : Ticks
  /-- Tick counter (R26). -/
  cnt : Ticks
  /-- Enabled flag (R27). -/
  en : Bool
  /-- Output level (R28). -/
  lvl : Level
deriving DecidableEq, Repr

/-- `dec.mode` (10_state.md R34). -/
inductive DecMode where
  | idle
  | payload
deriving DecidableEq, Repr

/-- One entry of the staging buffer: an 8-bit pin and a 20-bit signed frequency (10_state.md R34). -/
structure StageEntry where
  pin : Pin
  freq : BitVec 20
deriving DecidableEq, Repr

/-- The command decoder's state between words (10_state.md R34). -/
structure Decoder where
  mode : DecMode
  /-- COUNT of the INIT header being received. -/
  total : BitVec 8
  /-- Payload words received so far. -/
  seen : BitVec 8
  /-- `dec.stage[0..CAP-1]`. -/
  stage : List StageEntry
deriving DecidableEq, Repr

/-- The input alphabet (00_scope.md R14). -/
inductive Event where
  /-- `rst` sampled 1 (70_reset_and_hazards.md R180). -/
  | reset
  /-- One master-clock tick (20_memory.md R53). -/
  | tick
  /-- One command word accepted on the command port (20_memory.md R52). -/
  | cmd (w : Word)
deriving DecidableEq, Repr

/-- The output alphabet (00_scope.md R14). -/
inductive Output where
  /-- `PinWrite(p, l)` (20_memory.md R54). -/
  | pinWrite (pin : Pin) (level : Level)
  /-- `TimerStart(us)` (20_memory.md R57). -/
  | timerStart (periodUs : Nat)
deriving DecidableEq, Repr

/-- The block with its surroundings. `running`, `count`, `ch` and `dec` are the complete state of the block
(10_state.md R20). `params` are the instance's constants, which no event changes (log 1). `inputs` and `outputs` are
the run's input events still to be taken and its output list so far (00_scope.md R14, logs 2 and 3). -/
structure State where
  /-- CAP, F_MASTER, F_MIN of this instance (00_scope.md R10 to R12). -/
  params : Params
  /-- Set by the first INIT (R33). -/
  running : Bool
  /-- The number of channels in use (R23). -/
  count : Nat
  /-- The channel bank `ch[0..CAP-1]` (R21). -/
  ch : List Channel
  /-- The command decoder (R34). -/
  dec : Decoder
  /-- Input events not yet taken, in the order the block takes them (20_memory.md R64). -/
  inputs : List Event
  /-- Output events issued so far, oldest first (20_memory.md R64). -/
  outputs : List Output
deriving DecidableEq, Repr

/-- The block raises nothing and every event is accepted in every state (60_exceptions.md R160, R162): there is no
fault, so this type has no constructor (log 18). -/
inductive Fault
deriving DecidableEq, Repr

/-- The host's refusal of an instruction without a meaning. Every command has its meaning, so no arm of `exec` answers
it; it would be raised by `exec` alone, and would be safe. -/
inductive Refusal where
  | notModelled (mnemonic : String)
deriving DecidableEq, Repr

/-- A channel after reset: every field 0 (10_state.md R44). -/
def Channel.atReset : Channel := { pin := 0, tph := 0, cnt := 0, en := false, lvl := .low }

/-- A staging entry after reset. DESIGN CHOICE (log 4): the spec calls the contents irrelevant (10_state.md R34). -/
def StageEntry.atReset : StageEntry := { pin := 0, freq := 0 }

/-- The decoder of an instance after reset: IDLE, total 0, seen 0 (10_state.md R44). -/
def Decoder.atReset (p : Params) : Decoder :=
  { mode := .idle, total := 0, seen := 0, stage := List.replicate p.cap StageEntry.atReset }

/-- An instance after reset (10_state.md R44), with nothing presented and nothing issued yet. -/
def State.resetOf (p : Params) : State :=
  { params := p, running := false, count := 0, ch := List.replicate p.cap Channel.atReset,
    dec := Decoder.atReset p, inputs := [], outputs := [] }

/-- The machine right after reset, with the default parameters (log 1). -/
def State.reset : State := State.resetOf Params.default

end Sys2Proof.Machine
end

