-- ==== Sys2Proof/Machine/Operands.lean ====
section
/-! DEFINITION. How a command's operands select: the channel index (10_state.md R23, 41_control_commands.md R110), the
frequency range of SETF (R121), the pairs of INIT (R112), the staging entry of a payload word (10_state.md R34). -/

namespace Sys2Proof.Machine

/-- An index i is valid when 0 ≤ i < count (10_state.md R23), a signed comparison (40_tick_converter.md R105). -/
def validIndex (i : Int) (s : State) : Bool := decide (0 ≤ i ∧ i < (s.count : Int))

/-- The position and the record an index selects; an invalid index selects nothing (20_memory.md R69). -/
def selected (i : Int) (s : State) : Option (Nat × Channel) :=
  if validIndex i s then (s.ch[i.toNat]?).map (fun c => (i.toNat, c)) else none

/-- In range when F_MIN ≤ f and 2·f ≤ F_MASTER, both ends inclusive (41_control_commands.md R121). -/
def freqInRange (p : Params) (f : Int) : Bool := decide ((p.fMin : Int) ≤ f ∧ 2 * f ≤ (p.fMaster : Int))

/-- What the staging buffer keeps of a payload pair: 8 and 20 bits (10_state.md R34). -/
def StageEntry.ofPair (x : ChannelInit) : StageEntry := { pin := x.pin, freq := BitVec.ofInt 20 x.freq }

/-- The pair a staging entry stands for: its frequency read as signed (30_encoding.md R78). -/
def StageEntry.toPair (e : StageEntry) : ChannelInit := { pin := e.pin, freq := e.freq.toInt }

end Sys2Proof.Machine
end

