-- ==== Sys2Proof/Machine/Decoder.lean ====
section
/-! DEFINITION. Taking a command word from the command port: the two-mode decoder of 30_encoding.md R78 over
`dec` (10_state.md R34). This is the block's fetch (20_memory.md R67). -/

namespace Sys2Proof.Machine

/-- What taking a word leads to. -/
inductive Fetch where
  /-- The word completes a command, which executes now, in this state. -/
  | run (i : Instr) (s : State)
  /-- The word is part of an INIT that is not complete. -/
  | wait (s : State)
deriving DecidableEq, Repr

/-- The staging buffer after payload word number `seen`: kept if `seen < CAP`, dropped otherwise (R77, R78). -/
def Decoder.staged (cap : Nat) (w : Word) (d : Decoder) : List StageEntry :=
  if d.seen.toNat < cap then d.stage.set d.seen.toNat { pin := pinOf w, freq := freqBitsOf w } else d.stage

/-- The pairs the decoder hands to INIT: `dec.stage[0 .. min(dec.total, CAP) − 1]` (R78). -/
def Decoder.handed (cap : Nat) (d : Decoder) : List ChannelInit :=
  (d.stage.take (min d.total.toNat cap)).map StageEntry.toPair

/-- A word taken in mode IDLE begins a command (R78). -/
def takeFirst (w : Word) (s : State) : Fetch :=
  match decodeFirst w with
  | .command i => .run i s
  | .initHeader n => .wait { s with dec := { s.dec with mode := .payload, total := n, seen := 0 } }

/-- The decoder after it has taken a payload word (R78). -/
def Decoder.afterPayload (cap : Nat) (w : Word) (d : Decoder) : Decoder :=
  { mode := if d.seen + 1 = d.total then .idle else .payload
    total := d.total
    seen := d.seen + 1
    stage := d.staged cap w }

/-- A word taken in mode PAYLOAD is payload whatever its top bits hold (R78, R79). -/
def takePayload (w : Word) (s : State) : Fetch :=
  let d := s.dec.afterPayload s.params.cap w
  if s.dec.seen + 1 = s.dec.total then .run (.init (d.handed s.params.cap)) { s with dec := d }
  else .wait { s with dec := d }

/-- Taking one word from the command port (R78). -/
def takeWord (w : Word) (s : State) : Fetch :=
  match s.dec.mode with
  | .idle => takeFirst w s
  | .payload => takePayload w s

/-- The state in which the words of one command have been taken but for the last, which is presented next. -/
def presentLast : List Word → State → State
  | [], s => s
  | [w], s => { s with inputs := .cmd w :: s.inputs }
  | w :: ws, s =>
    match takeWord w s with
    | .wait t => presentLast ws t
    | .run _ t => presentLast ws t

end Sys2Proof.Machine
end

