-- ==== Sys2Proof/Machine/Converter.lean ====
section
/-! DEFINITION. The tick converter and the block's constant arithmetic (40_tick_converter.md R100, R105; 00_scope.md
R17). -/

namespace Sys2Proof.Machine

/-- `ceil_div(a, b) = (a + b − 1) div b`, for b > 0 (00_scope.md R17). -/
def ceilDiv (a b : Nat) : Nat := (a + b - 1) / b

/-- `ticksFor(f, M)` (R100). At f ≤ 0, where the spec gives no value (R101), a free value (log 6). -/
def ticksFor (f : Int) (m : Nat) : Nat :=
  if 0 < f then ceilDiv m f.toNat else Config.ticksForNonPositive f m

/-- `PERIOD_US = 1000000 div F_MASTER`, the argument of TimerStart (20_memory.md R57). -/
def periodUs (p : Params) : Nat := 1000000 / p.fMaster

end Sys2Proof.Machine
end

