-- ==== Sys2Proof/Machine/Flags.lean ====
section
/-! DEFINITION. The flags of the block (10_state.md R31): `en`, `lvl`, and the enable mask as a view (R29). There are
no condition codes. -/

namespace Sys2Proof.Machine

/-- `not l`: LOW to HIGH and HIGH to LOW (00_scope.md R17). -/
def Level.flip : Level → Level
  | .low => .high
  | .high => .low

/-- The enabled flag set to `b` (41_control_commands.md R126, R128); no other field changes. -/
def Channel.withEn (b : Bool) (c : Channel) : Channel := { c with en := b }

/-- The level an edge toggle leaves: flipped if enabled, forced LOW if not (42_tick_step.md R143). -/
def Channel.toggledLevel (c : Channel) : Level := if c.en then c.lvl.flip else .low

/-- `EN_MASK` as a number: bit i is `ch[i].en` (10_state.md R29). -/
def enMask : List Channel → Nat
  | [] => 0
  | c :: cs => c.en.toNat + 2 * enMask cs

end Sys2Proof.Machine
end

