-- ==== Sys2Proof/Machine/Ops.lean ====
section
/-! DEFINITION. The named operations over the channel bank and the output list, and the two input events that are not
commands: the tick step (42_tick_step.md) and Reset (70_reset_and_hazards.md).

The block takes no exception and returns from none (60_exceptions.md R160, R166, R167). Its one interrupt, the tick,
saves nothing, changes no mode and vectors nowhere: "the tick step simply runs" (R166). So the operation that stands
where another machine takes an exception is `tickStep`. -/

namespace Sys2Proof.Machine

/-- Appends output events to the run's output list (00_scope.md R17). -/
def State.emit (os : List Output) (s : State) : State := { s with outputs := s.outputs ++ os }

/-- Writes record k of the bank. -/
def State.setChannel (k : Nat) (c : Channel) (s : State) : State := { s with ch := s.ch.set k c }

/-! ## The tick step -/

/-- The edge-event condition, `tph > 0 and cnt >= tph`, unsigned (42_tick_step.md R141). -/
def Channel.edgeDue (c : Channel) : Bool := decide (0 < c.tph.toNat ∧ c.tph.toNat ≤ c.cnt.toNat)

/-- The per-channel step: at an edge event the counter is cleared and the level toggled, else the counter is
incremented modulo 2^20 (R141, R143). -/
def Channel.ticked (c : Channel) : Channel :=
  if c.edgeDue then { c with cnt := 0, lvl := c.toggledLevel } else { c with cnt := c.cnt + 1 }

/-- The pin write of the per-channel step: exactly one at an edge event, of the new level, none otherwise (R143,
R144); never suppressed (20_memory.md R55). -/
def Channel.tickOutputs (c : Channel) : List Output :=
  if c.edgeDue then [.pinWrite c.pin c.toggledLevel] else []

/-- The per-channel step on channels 0 to n−1, in index order (R140): the bank after it. -/
def tickBank : Nat → List Channel → List Channel
  | 0, cs => cs
  | _ + 1, [] => []
  | n + 1, c :: cs => c.ticked :: tickBank n cs

/-- The pin writes of the tick step on channels 0 to n−1, in index order (R140, R142). -/
def tickBankOutputs : Nat → List Channel → List Output
  | 0, _ => []
  | _ + 1, [] => []
  | n + 1, c :: cs => c.tickOutputs ++ tickBankOutputs n cs

/-- What one Tick does: the per-channel step on every channel in use (R140). -/
def tickStep (s : State) : State :=
  { s with ch := tickBank s.count s.ch, outputs := s.outputs ++ tickBankOutputs s.count s.ch }

/-! ## Reset -/

/-- What one Reset does: every state element at its reset value, no output event (70_reset_and_hazards.md R180). What
is still presented and what has been issued stay; the platform is not reached (R181). -/
def resetStep (s : State) : State :=
  { State.resetOf s.params with inputs := s.inputs, outputs := s.outputs }

/-! ## Operations of the commands -/

/-- A channel as INIT leaves it (41_control_commands.md R113, R114). -/
def initChannel (p : Params) (x : ChannelInit) : Channel :=
  { pin := x.pin
    tph := if 0 < x.freq then BitVec.ofNat 20 (ticksFor x.freq p.fMaster) else 0
    cnt := 0
    en := decide (0 < x.freq)
    lvl := .low }

/-- The bank with its first channels written from the pairs, in order; the others are not touched (R112, R114). -/
def initBank (p : Params) : List ChannelInit → List Channel → List Channel
  | [], cs => cs
  | _ :: _, [] => []
  | x :: xs, _ :: cs => initChannel p x :: initBank p xs cs

/-- The first INIT: at most CAP pairs are used; then the master clock is started (R112, R115). -/
def startBank (pairs : List ChannelInit) (s : State) : State :=
  { s with
    count := min pairs.length s.params.cap
    ch := initBank s.params (pairs.take s.params.cap) s.ch
    running := true
    outputs := s.outputs ++ [.timerStart (periodUs s.params)] }

/-- SETF's silence branch on one channel (R120, R122). -/
def Channel.silenced (c : Channel) : Channel := { c with cnt := 0, tph := 0, lvl := .low }

/-- SETF's in-range branch on one channel (R120, R123). -/
def Channel.retuned (p : Params) (f : Int) (c : Channel) : Channel :=
  { c with cnt := 0, tph := BitVec.ofNat 20 (ticksFor f p.fMaster) }

/-- What SETF does to a selected channel (R119). -/
def setFrequency (k : Nat) (c : Channel) (f : Int) (s : State) : State :=
  if freqInRange s.params f then s.setChannel k (c.retuned s.params f)
  else (s.setChannel k c.silenced).emit [.pinWrite c.pin .low]

/-- What EN and DIS do: the enabled flag of the selected channel, and nothing else (R126, R128). -/
def setEnabled (i : Int) (b : Bool) (s : State) : State :=
  match selected i s with
  | none => s
  | some (k, c) => s.setChannel k (c.withEn b)

/-- What NOP and the reserved opcodes do: nothing (R111, R130). -/
def noEffect (s : State) : State := s

end Sys2Proof.Machine
end

