-- ==== Sys2Proof/Machine/Control.lean ====
section
/-! DEFINITION. The meanings of NOP, INIT, SETF, EN and DIS (41_control_commands.md). Each always completes (R110). -/

namespace Sys2Proof.Machine

/-- NOP (R111). -/
def execNop (s : State) : Host.Outcome State Fault Refusal := .next (noEffect s)

/-- INIT (R112): the first one sets up the bank; one that finds `running` = 1 is ignored as a whole (R116). -/
def execInit (pairs : List ChannelInit) (s : State) : Host.Outcome State Fault Refusal :=
  if s.running then .next s else .next (startBank pairs s)

/-- SETF (R119): a no-op for an invalid index, whose frequency is not examined (R124). -/
def execSetf (idx freq : Int) (s : State) : Host.Outcome State Fault Refusal :=
  match selected idx s with
  | none => .next s
  | some (k, c) => .next (setFrequency k c freq s)

/-- EN (R126). -/
def execEn (idx : Int) (s : State) : Host.Outcome State Fault Refusal := .next (setEnabled idx true s)

/-- DIS (R128). -/
def execDis (idx : Int) (s : State) : Host.Outcome State Fault Refusal := .next (setEnabled idx false s)

end Sys2Proof.Machine
end

