-- ==== Sys2Proof/Machine/Reserved.lean ====
section
/-! DEFINITION. The meanings of the eleven reserved opcodes 0101 to 1111: each executes as NOP (41_control_commands.md
R130, 30_encoding.md R81). -/

namespace Sys2Proof.Machine

/-- Reserved opcode 0x5 (R130). -/
def execRsvd5 (s : State) : Host.Outcome State Fault Refusal := .next (noEffect s)

/-- Reserved opcode 0x6 (R130). -/
def execRsvd6 (s : State) : Host.Outcome State Fault Refusal := .next (noEffect s)

/-- Reserved opcode 0x7 (R130). -/
def execRsvd7 (s : State) : Host.Outcome State Fault Refusal := .next (noEffect s)

/-- Reserved opcode 0x8 (R130). -/
def execRsvd8 (s : State) : Host.Outcome State Fault Refusal := .next (noEffect s)

/-- Reserved opcode 0x9 (R130). -/
def execRsvd9 (s : State) : Host.Outcome State Fault Refusal := .next (noEffect s)

/-- Reserved opcode 0xA (R130). -/
def execRsvdA (s : State) : Host.Outcome State Fault Refusal := .next (noEffect s)

/-- Reserved opcode 0xB (R130). -/
def execRsvdB (s : State) : Host.Outcome State Fault Refusal := .next (noEffect s)

/-- Reserved opcode 0xC (R130). -/
def execRsvdC (s : State) : Host.Outcome State Fault Refusal := .next (noEffect s)

/-- Reserved opcode 0xD (R130). -/
def execRsvdD (s : State) : Host.Outcome State Fault Refusal := .next (noEffect s)

/-- Reserved opcode 0xE (R130). -/
def execRsvdE (s : State) : Host.Outcome State Fault Refusal := .next (noEffect s)

/-- Reserved opcode 0xF (R130). -/
def execRsvdF (s : State) : Host.Outcome State Fault Refusal := .next (noEffect s)

end Sys2Proof.Machine
end

