-- ==== Sys2Proof/Machine/Events.lean ====
section
/-! DEFINITION. What each input event does to the block, completely (00_scope.md R14, 20_memory.md R60). -/

namespace Sys2Proof.Machine

/-- One input event, taken as one atomic step: Reset (70_reset_and_hazards.md R180), Tick (42_tick_step.md R140), or a
command word, which the decoder takes and which executes the command it completes (30_encoding.md R78). -/
def takeEvent (e : Event) (s : State) : Host.Outcome State Fault Refusal :=
  match e with
  | .reset => .next (resetStep s)
  | .tick => .next (tickStep s)
  | .cmd w =>
    match takeWord w s with
    | .wait t => .next t
    | .run i t => exec i t

end Sys2Proof.Machine
end

