-- ==== Sys2Proof/Machine/Step.lean ====
section
/-! DEFINITION. One step: the block takes its next input event and processes it completely (00_scope.md R14,
20_memory.md R60). -/

namespace Sys2Proof.Machine

/-- One step: the first event presented is taken. With no event presented the block waits (70_reset_and_hazards.md
R182; log 2). -/
def step (s : State) : Host.Outcome State Fault Refusal :=
  match s.inputs with
  | [] => .next s
  | e :: es => takeEvent e { s with inputs := es }

/-- `s` with the words of one instruction at the command port: the decoder IDLE, every word but the last taken, the
last word presented next, so that the next step executes that instruction (log 14). -/
def State.withFetchWord (s : State) (nbits w : Nat) : State :=
  presentLast (tableWords nbits w) { s with dec := { s.dec with mode := .idle } }

end Sys2Proof.Machine
end

