-- ==== Sys2Proof/Machine/Assembler.lean ====
section
/-! DEFINITION. The textual form of commands, the pseudo-instruction `mute`, the directives `.tick` and `.reset`, and
the document's four calls as commands (30_encoding.md R85, R86, R87). A program is a list of input events. -/

namespace Sys2Proof.Machine

/-- One line of a program (R85, R87; `word` is a choice, log 16). -/
inductive AsmLine where
  | command (i : Instr)
  /-- `mute idx`. -/
  | mute (idx : Int)
  /-- A bare command word, as program P5 of 95_test_vectors.md writes one; R85's listing has no such line (log 16). -/
  | word (w : Word)
  /-- `.tick k`. -/
  | tick (k : Nat)
  /-- `.reset`. -/
  | reset
deriving DecidableEq, Repr

/-- The input events of one command: its canonical words (R84). For operands out of range see log 21. -/
def Instr.events (i : Instr) : List Event := (encode i).map .cmd

/-- The input events a line stands for: `mute idx` is `setf idx, 0`; the directives are events, not words (R87). -/
def AsmLine.events : AsmLine → List Event
  | .command i => Instr.events i
  | .mute idx => Instr.events (.setf idx 0)
  | .word w => [.cmd w]
  | .tick k => List.replicate k .tick
  | .reset => [.reset]

/-! ## The document's calls (R86) -/

/-- `initialize(frequencies, pins, count)` as INIT. DESIGN CHOICE (log 21): none when an array is shorter than `count`,
which the rule does not speak of. -/
def callInit (frequencies : List Int) (pins : List Pin) (count : Nat) : Option Instr :=
  if count ≤ frequencies.length ∧ count ≤ pins.length then
    some (.init (((pins.zip frequencies).take count).map (fun x => { pin := x.1, freq := x.2 })))
  else none

/-- `setFrequency(index, desiredFrequencyHz)`. -/
def callSetFrequency (index desiredFrequencyHz : Int) : Instr := .setf index desiredFrequencyHz

/-- `enable(index)`. -/
def callEnable (index : Int) : Instr := .en index

/-- `disable(index)`. -/
def callDisable (index : Int) : Instr := .dis index

/-! ## Reading text (R85) -/

/-- A token of a line. Case is dropped: mnemonics are case-insensitive (R85). -/
inductive Token where
  | word (cs : List Char)
  | comma
  | lparen
  | rparen
deriving DecidableEq, Repr

/-- The token of the characters gathered so far, latest first. -/
def flushWord (cur : List Char) : List Token := if cur = [] then [] else [.word cur.reverse]

/-- The tokens of a line; `;` begins a comment (the form shown in R85). -/
def tokensOf : List Char → List Char → List Token
  | [], cur => flushWord cur
  | c :: cs, cur =>
    if c = ';' then flushWord cur
    else if c = ' ' ∨ c = '\t' ∨ c = '\r' then flushWord cur ++ tokensOf cs []
    else if c = ',' then flushWord cur ++ .comma :: tokensOf cs []
    else if c = '(' then flushWord cur ++ .lparen :: tokensOf cs []
    else if c = ')' then flushWord cur ++ .rparen :: tokensOf cs []
    else tokensOf cs (c.toLower :: cur)

/-- A digit's value, decimal or hexadecimal, if below the base. -/
def digitValue (base : Nat) (c : Char) : Option Nat :=
  let v := if '0' ≤ c ∧ c ≤ '9' then some (c.toNat - 48)
    else if 'a' ≤ c ∧ c ≤ 'f' then some (c.toNat - 87) else none
  v.filter (fun d => decide (d < base))

/-- The number a non-empty digit string stands for. -/
def readDigits (base : Nat) (cs : List Char) : Option Nat :=
  if cs = [] then none
  else cs.foldl (fun acc c => acc.bind fun n => (digitValue base c).map fun d => base * n + d) (some 0)

/-- A decimal integer, optionally signed (R85). -/
def readInt : List Char → Option Int
  | '-' :: cs => (readDigits 10 cs).map (fun n => -(n : Int))
  | '+' :: cs => (readDigits 10 cs).map Int.ofNat
  | cs => (readDigits 10 cs).map Int.ofNat

/-- A pin identifier: 0 to 255, decimal or `0x` hexadecimal (R85). -/
def readPin (cs : List Char) : Option Pin :=
  let v : Option Int := match cs with
    | '0' :: 'x' :: hs => (readDigits 16 hs).map Int.ofNat
    | _ => readInt cs
  v.bind fun n => if 0 ≤ n ∧ n ≤ 255 then some (BitVec.ofInt 8 n) else none

/-- A bare command word: `0x` and a hexadecimal number below 2^32 (log 16). -/
def readCommandWord : List Char → Option Word
  | '0' :: 'x' :: hs => (readDigits 16 hs).bind fun n => if n < 2 ^ 32 then some (BitVec.ofNat 32 n) else none
  | _ => none

/-- INIT's pairs, each `, (pin, freq)` (R85). -/
def readPairs : List Token → Option (List ChannelInit)
  | [] => some []
  | .comma :: .lparen :: .word p :: .comma :: .word f :: .rparen :: rest =>
    match readPin p, readInt f, readPairs rest with
    | some pin, some freq, some more => some ({ pin := pin, freq := freq } :: more)
    | _, _, _ => none
  | _ => none

/-- A command the encoding can express, or nothing. -/
def encodable (i : Instr) : Option AsmLine := if i.wellFormed then some (.command i) else none

/-- The line a token list stands for; none if it stands for none (R85, R87). DESIGN CHOICE (log 16): a line that is one
`0x` numeral below 2^32 is that command word, the form program P5 writes for reserved opcodes and R85 leaves out.
DESIGN CHOICE (log 16): the k of `.tick k` may carry a sign, as R85 has it of operands, and a negative k is unreadable. -/
def readLine : List Token → Option AsmLine
  | [.word ['n', 'o', 'p']] => some (.command .nop)
  | .word ['i', 'n', 'i', 't'] :: .word n :: rest =>
    match readInt n, readPairs rest with
    | some k, some pairs => if k = (pairs.length : Int) then encodable (.init pairs) else none
    | _, _ => none
  | [.word ['s', 'e', 't', 'f'], .word i, .comma, .word f] =>
    match readInt i, readInt f with
    | some idx, some freq => encodable (.setf idx freq)
    | _, _ => none
  | [.word ['e', 'n'], .word i] => (readInt i).bind fun idx => encodable (.en idx)
  | [.word ['d', 'i', 's'], .word i] => (readInt i).bind fun idx => encodable (.dis idx)
  | [.word ['m', 'u', 't', 'e'], .word i] =>
    (readInt i).bind fun idx => if idxEncodable idx then some (.mute idx) else none
  | [.word ['.', 't', 'i', 'c', 'k'], .word k] =>
    (readInt k).bind fun n => if 0 ≤ n then some (.tick n.toNat) else none
  | [.word ['.', 'r', 'e', 's', 'e', 't']] => some .reset
  | [.word cs] => (readCommandWord cs).map .word
  | _ => none

/-- The lines of a text, split at line feeds. -/
def linesOf : List Char → List Char → List (List Char)
  | [], cur => [cur.reverse]
  | c :: cs, cur => if c = '\n' then cur.reverse :: linesOf cs [] else linesOf cs (c :: cur)

/-- The lines of a program, blank and comment lines left out; none if some line cannot be read. -/
def readLines : List (List Char) → Option (List AsmLine)
  | [] => some []
  | l :: ls =>
    if tokensOf l [] = [] then readLines ls
    else match readLine (tokensOf l []), readLines ls with
      | some a, some more => some (a :: more)
      | _, _ => none

/-- A program text as the input events it stands for (R85, R87). -/
def assemble (text : List Char) : Option (List Event) :=
  (readLines (linesOf text [])).map (fun ls => ls.flatMap AsmLine.events)

end Sys2Proof.Machine
end

