-- ==== Sys2Proof/Machine/Ports.lean ====
section
/-! DEFINITION. The ports of the block at event level (20_memory.md R51 to R59) and the platform's pin latch as a view
of the output list (10_state.md R36). -/

namespace Sys2Proof.Machine

/-- The input ports as sampled in one clock cycle in which the block is ready for its next event (20_memory.md R51). -/
structure PortSample where
  rst : Bool
  tick : Bool
  cmdValid : Bool
  cmdWord : Word
deriving DecidableEq, Repr

/-- The events of one sampled cycle, in the order they are taken: Reset overrides both others, a tick comes before the
word offered with it (60_exceptions.md R165; log 9). -/
def PortSample.events (p : PortSample) : List Event :=
  if p.rst then [.reset]
  else (if p.tick then [.tick] else []) ++ (if p.cmdValid then [.cmd p.cmdWord] else [])

/-- A sampled cycle presented to the block, after whatever is already presented. -/
def State.sample (p : PortSample) (s : State) : State := { s with inputs := s.inputs ++ p.events }

/-- The output ports in one cycle: the pin-write port when `pw_valid` = 1, `tmr_start`, and the constant
`tmr_period_us` (20_memory.md R51, R54, R57). -/
structure OutCycle where
  pinWrite : Option (Pin × Level)
  tmrStart : Bool
  tmrPeriodUs : BitVec 20
deriving DecidableEq, Repr

/-- The cycle that carries one output event. -/
def Output.onPorts (p : Params) : Output → OutCycle
  | .pinWrite q l => { pinWrite := some (q, l), tmrStart := false, tmrPeriodUs := BitVec.ofNat 20 (periodUs p) }
  | .timerStart _ => { pinWrite := none, tmrStart := true, tmrPeriodUs := BitVec.ofNat 20 (periodUs p) }

/-- The effect of one output event on the latch of pin p (10_state.md R36). -/
def latchStep (p : Pin) (l : Option Level) : Output → Option Level
  | .pinWrite q m => if q = p then some m else l
  | .timerStart _ => l

/-- The platform's pin latch after a list of output events: the level last written to pin p, and no value for a pin
that no PinWrite has named (10_state.md R36; log 15). -/
def pinLatch (os : List Output) (p : Pin) : Option Level := os.foldl (latchStep p) none

/-- The effect of one output event on "the level last written to p since the clock was started". -/
def writeSinceStartStep (p : Pin) (l : Option Level) : Output → Option Level
  | .pinWrite q m => if q = p then some m else l
  | .timerStart _ => none

/-- The level last written to pin p after the last TimerStart of a list of output events, if any. INIT issues the
TimerStart, so this is the block's last write to p since INIT (10_state.md R28). -/
def writeSinceStart (os : List Output) (p : Pin) : Option Level := os.foldl (writeSinceStartStep p) none

/-- The level of one output event's write to pin p, if it is one. -/
def Output.levelOn (p : Pin) : Output → Option Level
  | .pinWrite q m => if q = p then some m else none
  | .timerStart _ => none

/-- The levels written to pin p, in order: the waveform on p by writes. -/
def writesOn (p : Pin) (os : List Output) : List Level := os.filterMap (Output.levelOn p)

/-- Whether an output event is a TimerStart. -/
def Output.isTimerStart : Output → Bool
  | .pinWrite _ _ => false
  | .timerStart _ => true

/-- Whether an output event is a PinWrite. -/
def Output.isPinWrite : Output → Bool
  | .pinWrite _ _ => true
  | .timerStart _ => false

/-- The TimerStart events of an output list. -/
def timerStarts (os : List Output) : List Output := os.filter Output.isTimerStart

/-- The PinWrite events of an output list. -/
def pinWrites (os : List Output) : List Output := os.filter Output.isPinWrite

end Sys2Proof.Machine
end

