-- ==== Sys2Proof/Safety.lean ====
section
/-! DEFINITION. The terms claims use: runs over given input events, the invariant of the reachable states
(10_state.md section 8), and the arithmetic of a stretch of ticks (42_tick_step.md section 3). -/

namespace Sys2Proof.Machine

/-- `n` steps, stopping at the first outcome that is no next state. -/
def steps : Nat → State → Host.Outcome State Fault Refusal
  | 0, s => .next s
  | n + 1, s =>
    match step s with
    | .next t => steps n t
    | .fault r => .fault r
    | .refused r => .refused r

/-- What a run does after an outcome: it goes on from a next state, and stops at anything else. -/
def andThen (o : Host.Outcome State Fault Refusal) (k : State → Host.Outcome State Fault Refusal) :
    Host.Outcome State Fault Refusal :=
  match o with
  | .next t => k t
  | .fault r => .fault r
  | .refused r => .refused r

/-- `s` with events presented before everything already presented. -/
def State.present (es : List Event) (s : State) : State := { s with inputs := es ++ s.inputs }

/-- The run of `s` over the events `es`: each is taken once, in order (20_memory.md R64). -/
def runEvents (es : List Event) (s : State) : Host.Outcome State Fault Refusal := steps es.length (s.present es)

/-- The invariant of the block. Every clause is a consequence of the operation rules, proved and not enforced
(10_state.md section 8). -/
structure State.Inv (s : State) : Prop where
  /-- The bank has CAP records (R21). -/
  bankSize : s.ch.length = s.params.cap
  /-- The staging buffer has CAP entries (R34). -/
  stageSize : s.dec.stage.length = s.params.cap
  /-- 0 ≤ count ≤ CAP (R37). -/
  countLe : s.count ≤ s.params.cap
  /-- Before the first INIT there is no channel (R23, R44). -/
  countZero : s.running = false → s.count = 0
  /-- A channel not in use keeps its reset values (R21). -/
  unused : ∀ (j : Nat) (c : Channel), s.count ≤ j → s.ch[j]? = some c → c = Channel.atReset
  /-- tph ≤ F_MASTER (R25). -/
  tphLe : ∀ (j : Nat) (c : Channel), s.ch[j]? = some c → c.tph.toNat ≤ s.params.fMaster
  /-- cnt ≤ tph while tph > 0 (R38). -/
  cntLe : ∀ (j : Nat) (c : Channel), s.ch[j]? = some c → 0 < c.tph.toNat → c.cnt.toNat ≤ c.tph.toNat
  /-- tph = 0 implies LOW (R39). -/
  lvlLow : ∀ (j : Nat) (c : Channel), s.ch[j]? = some c → c.tph = 0 → c.lvl = .low
  /-- seen < total while the decoder is receiving payload (R34). -/
  seenLt : s.dec.mode = .payload → s.dec.seen.toNat < s.dec.total.toNat

/-- Channel j is in use and no other channel in use holds its pin. -/
def State.ownsPin (s : State) (j : Nat) (c : Channel) : Prop :=
  j < s.count ∧ s.ch[j]? = some c ∧ ∀ (k : Nat) (d : Channel), k < s.count → s.ch[k]? = some d → k ≠ j → d.pin ≠ c.pin

/-- For a channel that alone holds its pin, the level is that of the block's last write to the pin since INIT, and LOW
if there has been none (10_state.md R28). -/
def State.LevelIsLastWrite (s : State) : Prop :=
  ∀ (j : Nat) (c : Channel), s.ownsPin j c →
    writeSinceStart s.outputs c.pin = some c.lvl ∨ (writeSinceStart s.outputs c.pin = none ∧ c.lvl = .low)

/-- A level flipped n times. -/
def Level.flips : Nat → Level → Level
  | 0, l => l
  | n + 1, l => (Level.flips n l).flip

/-- The number of edge events in `n` consecutive ticks of a channel with tick count `t` > 0 whose counter is `c0` at
their start: `(n + c0) div (t + 1)` (42_tick_step.md R147). -/
def edgeCount (t c0 n : Nat) : Nat := (n + c0) / (t + 1)

/-- Whether tick number k + 1 of a stretch of ticks from `s` is an edge event of channel i: after k ticks its counter
has reached its tick count (42_tick_step.md R141). -/
def State.edgeAt (s : State) (i k : Nat) : Bool :=
  match runEvents (List.replicate k .tick) s with
  | .next t => ((t.ch[i]?).map Channel.edgeDue).getD false
  | .fault _ => false
  | .refused _ => false

/-- Whether the decoder is in the midst of an INIT at the next word, and that word is not its last (20_memory.md R61). -/
def State.awaitsMore (s : State) : Bool := decide (s.dec.mode = .payload) && decide (s.dec.seen + 1 ≠ s.dec.total)

/-- The same block state but for decoder contents that are not in use: an idle decoder's counters and staging buffer,
and the staging entries an INIT being received has not written yet (10_state.md R34: "never read before written"). -/
def State.sameButUnreadStage (s t : State) : Prop :=
  s.params = t.params ∧ s.running = t.running ∧ s.count = t.count ∧ s.ch = t.ch ∧ s.inputs = t.inputs ∧
  s.outputs = t.outputs ∧ s.dec.mode = t.dec.mode ∧ s.dec.stage.length = t.dec.stage.length ∧
  (s.dec.mode = .payload → s.dec.total = t.dec.total ∧ s.dec.seen = t.dec.seen ∧
    ∀ j, j < s.dec.seen.toNat → j < s.params.cap → s.dec.stage[j]? = t.dec.stage[j]?)

/-- The bits of a command's first word that are not ignored, by its opcode (30_encoding.md R71, R82). -/
def usedBits (op : BitVec 4) : Word :=
  if op = 0x1#4 then 0xF00000FF#32
  else if op = 0x2#4 then 0xFFFFFFFF#32
  else if op = 0x3#4 ∨ op = 0x4#4 then 0xFFF00000#32
  else 0xF0000000#32

/-- The bits of a payload word that are not ignored (R71). -/
def payloadBits : Word := 0x0FFFFFFF#32

/-- The words of one command with their ignored bits cleared (R82). -/
def clearIgnored : List Word → List Word
  | [] => []
  | w :: ws => (w &&& usedBits (opOf w)) :: ws.map (fun p => p &&& payloadBits)

end Sys2Proof.Machine
end

