-- ==== Sys2Proof/Certificates/Slice0/Obligations.lean ====
section
/-! DEFINITION. The statements for the provers. A docstring names the rule of spec/ a statement comes from. "Channel i"
is the record `ch[i]`; a statement about a channel holds for every record it names, whether or not a run reaches it.

Some rules carry the spec's own mark "[derived: …]" (R37 to R39, R41, R42, R63, R84, R102, R103, R142, R146 to R152,
R190 to R193, R195): a docstring that calls a rule "a derivation of the spec" formalises that inference. The edge spacing
T + 1, which all the waveform statements rest on, is the spec's reading of its source (log 11). -/

open Sys2Proof Sys2Proof.Machine

/-! ## Decoding and encoding (30_encoding.md) -/

/-- Thirteen words of 95_test_vectors.md V2, written out bit by bit from the formats of 30_encoding.md R71, decode to the
commands and pairs they stand for. IDX and FREQ stand at both ends of their ranges; COUNT only at 0 and 3, PIN only at 3
and 255. -/
def Obligations.DecodeReadsWrittenWords : Prop :=
  decodeFirst 0b00000000000000000000000000000000#32 = .command .nop ∧
  decodeFirst 0b00001111111111111111111111111111#32 = .command .nop ∧
  decodeFirst 0b00010000000000000000000000000000#32 = .command (.init []) ∧
  decodeFirst 0b00010000000000000000000000000011#32 = .initHeader 3#8 ∧
  decodePayload 0b00000000001100000000000110111000#32 = { pin := 3, freq := 440 } ∧
  decodePayload 0b00001111111111111111111111111111#32 = { pin := 255, freq := -1 } ∧
  decodeFirst 0b00100000000100000000001111101000#32 = .command (.setf 1 1000) ∧
  decodeFirst 0b00101000000001111111111111111111#32 = .command (.setf (-128) 524287) ∧
  decodeFirst 0b00100111111110000000000000000000#32 = .command (.setf 127 (-524288)) ∧
  decodeFirst 0b00110000011100000000000000000000#32 = .command (.en 7) ∧
  decodeFirst 0b01001000000000000000000000000000#32 = .command (.dis (-128)) ∧
  decodeFirst 0b01010000000000000000000000000000#32 = .command .rsvd5 ∧
  decodeFirst 0b11110001001000110100010101100111#32 = .command .rsvdF

/-- The opcode table (R80): a word selects the row whose match its top four bits are. -/
def Obligations.OpcodeTableSelectsByTopFourBits : Prop :=
  ∀ w : Word,
    (w &&& 0xF0000000#32 = 0x00000000#32 → decodeFirst w = .command .nop) ∧
    (w &&& 0xF0000000#32 = 0x10000000#32 → w.extractLsb' 0 8 = 0#8 → decodeFirst w = .command (.init [])) ∧
    (w &&& 0xF0000000#32 = 0x10000000#32 → w.extractLsb' 0 8 ≠ 0#8 → decodeFirst w = .initHeader (w.extractLsb' 0 8)) ∧
    (w &&& 0xF0000000#32 = 0x20000000#32 →
      decodeFirst w = .command (.setf (w.extractLsb' 20 8).toInt (w.extractLsb' 0 20).toInt)) ∧
    (w &&& 0xF0000000#32 = 0x30000000#32 → decodeFirst w = .command (.en (w.extractLsb' 20 8).toInt)) ∧
    (w &&& 0xF0000000#32 = 0x40000000#32 → decodeFirst w = .command (.dis (w.extractLsb' 20 8).toInt)) ∧
    (w &&& 0xF0000000#32 = 0x50000000#32 → decodeFirst w = .command .rsvd5) ∧
    (w &&& 0xF0000000#32 = 0x60000000#32 → decodeFirst w = .command .rsvd6) ∧
    (w &&& 0xF0000000#32 = 0x70000000#32 → decodeFirst w = .command .rsvd7) ∧
    (w &&& 0xF0000000#32 = 0x80000000#32 → decodeFirst w = .command .rsvd8) ∧
    (w &&& 0xF0000000#32 = 0x90000000#32 → decodeFirst w = .command .rsvd9) ∧
    (w &&& 0xF0000000#32 = 0xA0000000#32 → decodeFirst w = .command .rsvdA) ∧
    (w &&& 0xF0000000#32 = 0xB0000000#32 → decodeFirst w = .command .rsvdB) ∧
    (w &&& 0xF0000000#32 = 0xC0000000#32 → decodeFirst w = .command .rsvdC) ∧
    (w &&& 0xF0000000#32 = 0xD0000000#32 → decodeFirst w = .command .rsvdD) ∧
    (w &&& 0xF0000000#32 = 0xE0000000#32 → decodeFirst w = .command .rsvdE) ∧
    (w &&& 0xF0000000#32 = 0xF0000000#32 → decodeFirst w = .command .rsvdF)

/-- The encoder's formulas and the round trip (R84, a derivation of the spec), for every command the encoding can
express: the words are the numbers the rule gives, and decoding them, with any words after them, gives back the same
command and those words. -/
def Obligations.EncodeFollowsFormulasAndDecodesBack : Prop :=
  (encode .nop).map BitVec.toNat = [0x00000000] ∧
  (∀ pairs : List ChannelInit, (Instr.init pairs).wellFormed = true →
    (encode (.init pairs)).map BitVec.toNat =
      (0x10000000 + pairs.length) :: pairs.map (fun x => x.pin.toNat * 2 ^ 20 + (x.freq % 2 ^ 20).toNat)) ∧
  (∀ i f : Int, (Instr.setf i f).wellFormed = true →
    (encode (.setf i f)).map BitVec.toNat = [0x20000000 + (i % 2 ^ 8).toNat * 2 ^ 20 + (f % 2 ^ 20).toNat]) ∧
  (∀ i : Int, (Instr.en i).wellFormed = true →
    (encode (.en i)).map BitVec.toNat = [0x30000000 + (i % 2 ^ 8).toNat * 2 ^ 20]) ∧
  (∀ i : Int, (Instr.dis i).wellFormed = true →
    (encode (.dis i)).map BitVec.toNat = [0x40000000 + (i % 2 ^ 8).toNat * 2 ^ 20]) ∧
  (∀ (i : Instr) (rest : List Word), i.wellFormed = true → decode (encode i ++ rest) = .ok (i, rest))

/-- The other direction: whatever decodes is a command the encoding can express, takes one word, or 1 + COUNT words
for INIT (R70, R79), and encodes to the words it came from with their ignored bits cleared (R82, R84). -/
def Obligations.DecodedWordsReencodeCanonically : Prop :=
  ∀ (ws rest : List Word) (i : Instr), decode ws = .ok (i, rest) →
    i.wellFormed = true ∧ ws = ws.take i.wordCount ++ rest ∧ (ws.take i.wordCount).length = i.wordCount ∧
    encode i = clearIgnored (ws.take i.wordCount)

/-- Ignored bits (R82): two words equal but for their ignored bits decode to the same thing and have the same effect,
as first words and as payload words; an encoder writes those bits 0; and the rule's example. -/
def Obligations.IgnoredBitsHaveNoEffect : Prop :=
  (∀ (w v : Word), w &&& usedBits (opOf w) = v &&& usedBits (opOf w) →
    decodeFirst w = decodeFirst v ∧
    ∀ (s : State) (es : List Event), s.dec.mode = .idle →
      step { s with inputs := .cmd w :: es } = step { s with inputs := .cmd v :: es }) ∧
  (∀ (w v : Word), w &&& payloadBits = v &&& payloadBits →
    decodePayload w = decodePayload v ∧
    ∀ (s : State) (es : List Event), s.dec.mode = .payload →
      step { s with inputs := .cmd w :: es } = step { s with inputs := .cmd v :: es }) ∧
  (∀ i : Instr, i.wellFormed = true → clearIgnored (encode i) = encode i) ∧
  decodeFirst 0x3FF00001#32 = .command (.en (-1)) ∧ decodeFirst 0x3FF00000#32 = .command (.en (-1))

/-! ## The step and the decoder -/

/-- A step runs the decoded command: in mode IDLE, a word that is a whole command makes the step the command's
meaning, in the state with the word taken (R78). -/
def Obligations.StepRunsDecodedCommand : Prop :=
  ∀ (s : State) (es : List Event) (w : Word) (i : Instr), s.dec.mode = .idle → decodeFirst w = .command i →
    step { s with inputs := .cmd w :: es } = exec i { s with inputs := es }

/-- The two-mode decoder, case by case (30_encoding.md R78). `u` is the state with the word taken. Two points are read
from R78's pseudocode by inference (log 5, DEDUCED): INIT's last word leaves `total`, the incremented `seen` and the
staging buffer as they are, and `seen` + 1 is taken modulo 2^8, which shows only at `seen` = 255 in states no run
reaches. -/
def Obligations.DecoderTakesOneWordPerEvent : Prop :=
  ∀ (s : State) (es : List Event) (w : Word),
    let u : State := { s with inputs := es }
    let got := step { s with inputs := .cmd w :: es }
    (s.dec.mode = .idle →
      (w.extractLsb' 28 4 = 0x1#4 → w.extractLsb' 0 8 = 0#8 → got = exec (.init []) u) ∧
      (w.extractLsb' 28 4 = 0x1#4 → w.extractLsb' 0 8 ≠ 0#8 →
        got = .next { u with dec := { s.dec with mode := .payload, total := w.extractLsb' 0 8, seen := 0 } }) ∧
      (w.extractLsb' 28 4 = 0x2#4 → got = exec (.setf (w.extractLsb' 20 8).toInt (w.extractLsb' 0 20).toInt) u) ∧
      (w.extractLsb' 28 4 = 0x3#4 → got = exec (.en (w.extractLsb' 20 8).toInt) u) ∧
      (w.extractLsb' 28 4 = 0x4#4 → got = exec (.dis (w.extractLsb' 20 8).toInt) u) ∧
      (w.extractLsb' 28 4 = 0x0#4 ∨ 5 ≤ (w.extractLsb' 28 4).toNat → got = exec .nop u)) ∧
    (s.dec.mode = .payload →
      ∃ st : List StageEntry,
        (∀ j, st[j]? =
          if j = s.dec.seen.toNat ∧ j < s.params.cap
          then (s.dec.stage[j]?).map (fun _ => { pin := w.extractLsb' 20 8, freq := w.extractLsb' 0 20 })
          else s.dec.stage[j]?) ∧
        (s.dec.seen + 1 ≠ s.dec.total →
          got = .next { u with dec := { mode := .payload, total := s.dec.total, seen := s.dec.seen + 1, stage := st } }) ∧
        (s.dec.seen + 1 = s.dec.total →
          got = exec (.init ((st.take (min s.dec.total.toNat s.params.cap)).map StageEntry.toPair))
            { u with dec := { mode := .idle, total := s.dec.total, seen := s.dec.seen + 1, stage := st } }))

/-- Every command delivered: if a list of words has command i at its head, the run over those words from an idle
decoder does exactly what i does, with nothing else changed but decoder contents that are then out of use (R61, R70,
R77, R78). For INIT this says that the pairs staged word by word are the pairs of the payload. -/
def Obligations.DeliveredCommandExecutesOnce : Prop :=
  ∀ (ws rest : List Word) (i : Instr) (s : State), decode ws = .ok (i, rest) → s.dec.mode = .idle →
    s.dec.stage.length = s.params.cap →
    ∃ d : Decoder, d.mode = .idle ∧ d.stage.length = s.params.cap ∧
      runEvents ((ws.take i.wordCount).map .cmd) s = exec i { s with dec := d }

/-- While INIT's words arrive only `dec` changes, ticks between them see the bank as it was, and the whole update
happens in the event of the last word, or of the header when COUNT = 0 (20_memory.md R61). -/
def Obligations.InitIsAtomicAtItsLastWord : Prop :=
  (∀ (s : State) (es : List Event) (w : Word) (n : BitVec 8), s.dec.mode = .idle → decodeFirst w = .initHeader n →
    ∃ d, d.mode = .payload ∧ step { s with inputs := .cmd w :: es } = .next { s with inputs := es, dec := d }) ∧
  (∀ (s : State) (es : List Event) (w : Word), s.awaitsMore = true →
    ∃ d, d.mode = .payload ∧ step { s with inputs := .cmd w :: es } = .next { s with inputs := es, dec := d }) ∧
  (∀ (s : State) (w : Word), s.awaitsMore = true → runEvents [.cmd w, .tick] s = runEvents [.tick, .cmd w] s) ∧
  (∀ (s : State) (es : List Event) (w : Word), s.dec.mode = .payload → s.dec.seen + 1 = s.dec.total →
    ∃ pairs d, d.mode = .idle ∧
      step { s with inputs := .cmd w :: es } = exec (.init pairs) { s with inputs := es, dec := d }) ∧
  (∀ (s : State) (es : List Event) (w : Word), s.dec.mode = .idle → decodeFirst w = .command (.init []) →
    step { s with inputs := .cmd w :: es } = exec (.init []) { s with inputs := es })

/-- INIT with ticks anywhere between its words: the result is that of the ticks first, then INIT (R61, R77). -/
def Obligations.InitWithTicksBetweenItsWords : Prop :=
  ∀ (pairs : List ChannelInit) (es : List Event) (s : State), (Instr.init pairs).wellFormed = true →
    s.dec.mode = .idle → s.dec.stage.length = s.params.cap →
    es.filter (fun e => decide (e ≠ .tick)) = (encode (.init pairs)).map .cmd → es.getLast? ≠ some .tick →
    ∃ d : Decoder, d.mode = .idle ∧
      runEvents es s = exec (.init pairs) { tickStep^[es.count .tick] s with dec := d }

/-- Staging contents are never read before they are written, and an idle decoder's counters are not read at all
(10_state.md R34): two states that differ in nothing else go through any number of steps differing in nothing else. -/
def Obligations.StagingIsNeverReadBeforeWritten : Prop :=
  ∀ (n : Nat) (s t : State), s.sameButUnreadStage t →
    ∃ u v, steps n s = .next u ∧ steps n t = .next v ∧ u.sameButUnreadStage v

/-- A next state and an output list for every state and every input event, and no fault and no stuck outcome
(60_exceptions.md R160): every command and every step answers a next state; a step takes one event, adds to the output
list at its end only, and never changes the parameters. The second and third clauses also cover a state with nothing
presented, of which the rule does not speak: that a step answers a next state there is the model's choice (log 2,
DESIGN CHOICE). -/
def Obligations.EveryEventIsAcceptedInEveryState : Prop :=
  (∀ (i : Instr) (s : State), ∃ t, exec i s = .next t) ∧
  (∀ s : State, ∃ t os, step s = .next t ∧ t.outputs = s.outputs ++ os ∧ t.inputs = s.inputs.tail ∧
    t.params = s.params) ∧
  (∀ (n : Nat) (s : State), ∃ t, steps n s = .next t)

/-- One total order of events (20_memory.md R64): the run over two lists of events is the run over the second from
where the run over the first ends; it takes exactly those events; and its outputs come after all earlier ones. -/
def Obligations.RunsFoldOverTheEventOrder : Prop :=
  (∀ (es fs : List Event) (s : State), runEvents (es ++ fs) s = andThen (runEvents es s) (runEvents fs)) ∧
  (∀ (es : List Event) (s : State), ∃ t os, runEvents es s = .next t ∧ t.inputs = s.inputs ∧
    t.outputs = s.outputs ++ os)

/-- With no event presented the block waits. The model's choice (log 2) for 70_reset_and_hazards.md R182: "after reset
the block waits for events". -/
def Obligations.WaitsWhenNothingIsPresented : Prop :=
  ∀ s : State, s.inputs = [] → step s = .next s

/-! ## Reset -/

/-- The Reset event (70_reset_and_hazards.md R180), at any point of a run. The last clause, on the port, is not
R180's: that `rst` sampled 1 is the Reset event alone, whatever tick and word are offered in the same cycle, is read
from 60_exceptions.md R165 ("it overrides both") by inference (log 9, DEDUCED). -/
def Obligations.ResetEventClearsTheBlock : Prop :=
  ∀ (s : State) (es : List Event), ∃ t, step { s with inputs := .reset :: es } = .next t ∧
    t.running = false ∧ t.count = 0 ∧ t.ch.length = s.params.cap ∧
    (∀ j, j < s.params.cap → t.ch[j]? = some { pin := 0, tph := 0, cnt := 0, en := false, lvl := .low }) ∧
    t.dec.mode = .idle ∧ t.dec.total = 0 ∧ t.dec.seen = 0 ∧
    t.outputs = s.outputs ∧ t.inputs = es ∧ t.params = s.params ∧
    ∀ b v w, step (State.sample { rst := true, tick := b, cmdValid := v, cmdWord := w } { s with inputs := [] }) =
      step { s with inputs := [.reset] }

/-- Reset values, and what follows from `count` = 0 until INIT executes (10_state.md R44). -/
def Obligations.ResetValuesAndInertUntilInit : Prop :=
  (∀ p : Params, (State.resetOf p).running = false ∧ (State.resetOf p).count = 0 ∧
    (∀ j, j < p.cap → (State.resetOf p).ch[j]? = some { pin := 0, tph := 0, cnt := 0, en := false, lvl := .low }) ∧
    (State.resetOf p).dec.mode = .idle ∧ (State.resetOf p).dec.total = 0 ∧ (State.resetOf p).dec.seen = 0) ∧
  (∀ (s : State) (i f : Int) (es : List Event), s.count = 0 →
    exec (.setf i f) s = .next s ∧ exec (.en i) s = .next s ∧ exec (.dis i) s = .next s ∧
    step { s with inputs := .tick :: es } = .next { s with inputs := es })

/-! ## NOP, the reserved opcodes, INIT -/

/-- NOP and the eleven reserved opcodes complete in every state and change nothing (41_control_commands.md R111,
R130); and a word with such an opcode taken in mode IDLE is consumed and nothing else happens. -/
def Obligations.NopAndReservedOpcodesDoNothing : Prop :=
  (∀ (i : Instr) (s : State),
    i ∈ [.nop, .rsvd5, .rsvd6, .rsvd7, .rsvd8, .rsvd9, .rsvdA, .rsvdB, .rsvdC, .rsvdD, .rsvdE, .rsvdF] →
      exec i s = .next s) ∧
  (∀ (s : State) (es : List Event) (w : Word), s.dec.mode = .idle →
    w.extractLsb' 28 4 = 0x0#4 ∨ 5 ≤ (w.extractLsb' 28 4).toNat →
      step { s with inputs := .cmd w :: es } = .next { s with inputs := es })

/-- The first INIT completes and sets up the bank (R113, R114) and starts the clock (R115): at most CAP pairs are
used, each used pair writes its channel, no other channel changes, the only output is one TimerStart. -/
def Obligations.FirstInitSetsUpBankAndStartsClock : Prop :=
  ∀ (pairs : List ChannelInit) (s : State), s.running = false → s.ch.length = s.params.cap →
    ∃ t, exec (.init pairs) s = .next t ∧
      t.running = true ∧ t.count = min pairs.length s.params.cap ∧ t.ch.length = s.ch.length ∧
      (∀ (j : Nat) (x : ChannelInit), j < s.params.cap → pairs[j]? = some x →
        ∃ d : Channel, t.ch[j]? = some d ∧ d.pin = x.pin ∧ d.cnt = 0 ∧ d.lvl = .low ∧
          (0 < x.freq → d.en = true ∧ d.tph.toNat = ceilDiv s.params.fMaster x.freq.toNat) ∧
          (x.freq ≤ 0 → d.en = false ∧ d.tph = 0)) ∧
      (∀ j, t.count ≤ j → t.ch[j]? = s.ch[j]?) ∧
      t.outputs = s.outputs ++ [.timerStart (1000000 / s.params.fMaster)] ∧
      t.dec = s.dec ∧ t.inputs = s.inputs ∧ t.params = s.params

/-- A second INIT is ignored as a whole (R116): the command itself changes nothing, and its words, header and all of
the payload, are consumed by the decoder, which is then idle, with no other state written and no output. -/
def Obligations.SecondInitIsConsumedAndIgnored : Prop :=
  (∀ (pairs : List ChannelInit) (s : State), s.running = true → exec (.init pairs) s = .next s) ∧
  (∀ (ws rest : List Word) (pairs : List ChannelInit) (s : State), decode ws = .ok (.init pairs, rest) →
    s.running = true → s.dec.mode = .idle → s.dec.stage.length = s.params.cap →
    ∃ d : Decoder, d.mode = .idle ∧
      runEvents ((ws.take (1 + pairs.length)).map .cmd) s = .next { s with dec := d })

/-! ## SETF -/

/-- SETF with a valid index and an in-range frequency (R120, R123): completes; the counter is cleared, the tick count
is that of the frequency, 2 or more; nothing else changes and nothing is output. -/
def Obligations.SetfInRangeRetunesAndRestartsPhase : Prop :=
  ∀ (s : State) (i f : Int) (c : Channel), 0 ≤ i → i < (s.count : Int) → s.ch[i.toNat]? = some c →
    (s.params.fMin : Int) ≤ f → 2 * f ≤ (s.params.fMaster : Int) →
    ∃ t d, exec (.setf i f) s = .next t ∧ t.ch[i.toNat]? = some d ∧
      d.cnt = 0 ∧ d.tph.toNat = ceilDiv s.params.fMaster f.toNat ∧
      2 ≤ d.tph.toNat ∧ d.tph.toNat ≤ ceilDiv s.params.fMaster s.params.fMin ∧
      d.pin = c.pin ∧ d.en = c.en ∧ d.lvl = c.lvl ∧
      (∀ j, j ≠ i.toNat → t.ch[j]? = s.ch[j]?) ∧ t.ch.length = s.ch.length ∧
      t.outputs = s.outputs ∧ t.running = s.running ∧ t.count = s.count ∧ t.dec = s.dec ∧ t.inputs = s.inputs ∧
      t.params = s.params

/-- SETF with a valid index and a frequency out of range (R122): completes; tick count, counter and level become 0,
LOW is written to the pin in this same event whatever the level was, the enabled flag and everything else stay. -/
def Obligations.SetfOutOfRangeSilencesAtOnce : Prop :=
  ∀ (s : State) (i f : Int) (c : Channel), 0 ≤ i → i < (s.count : Int) → s.ch[i.toNat]? = some c →
    f < (s.params.fMin : Int) ∨ (s.params.fMaster : Int) < 2 * f →
    ∃ t d, exec (.setf i f) s = .next t ∧ t.ch[i.toNat]? = some d ∧
      d.cnt = 0 ∧ d.tph = 0 ∧ d.lvl = .low ∧ d.pin = c.pin ∧ d.en = c.en ∧
      (∀ j, j ≠ i.toNat → t.ch[j]? = s.ch[j]?) ∧ t.ch.length = s.ch.length ∧
      t.outputs = s.outputs ++ [.pinWrite c.pin .low] ∧ t.running = s.running ∧ t.count = s.count ∧
      t.dec = s.dec ∧ t.inputs = s.inputs ∧ t.params = s.params

/-- SETF's range check (R121): both ends are inclusive; every f ≤ 0 is out of range; with F_MASTER < 2·F_MIN every
frequency is; and 2·f > F_MASTER is f > F_MASTER / 2, even or odd. Said through what SETF outputs. -/
def Obligations.SetfRangeCheckIsInclusive : Prop :=
  ∀ (s : State) (i f : Int) (c : Channel), 0 ≤ i → i < (s.count : Int) → s.ch[i.toNat]? = some c →
    ∃ t, exec (.setf i f) s = .next t ∧
      (t.outputs = s.outputs ↔ (s.params.fMin : Int) ≤ f ∧ 2 * f ≤ (s.params.fMaster : Int)) ∧
      (t.outputs = s.outputs ↔ (s.params.fMin : Int) ≤ f ∧ f ≤ ((s.params.fMaster / 2 : Nat) : Int)) ∧
      (f ≤ 0 → t.outputs ≠ s.outputs) ∧
      (s.params.fMaster < 2 * s.params.fMin → t.outputs ≠ s.outputs)

/-- With an invalid index SETF, EN and DIS complete, change no state and issue no output (R110). -/
def Obligations.InvalidIndexIsANoOp : Prop :=
  ∀ (s : State) (i f : Int), i < 0 ∨ (s.count : Int) ≤ i →
    exec (.setf i f) s = .next s ∧ exec (.en i) s = .next s ∧ exec (.dis i) s = .next s

/-- The ranges of the tick counts the commands write (10_state.md R41, a derivation of the spec, as
41_control_commands.md R113 has it; log 20): INIT 0 or 1 to F_MASTER, SETF 0 or 2 to ceil_div(F_MASTER, F_MIN). INIT
applies no range check: a frequency above F_MASTER / 2 gives 1 or 2. -/
def Obligations.TickCountsWrittenAreInRange : Prop :=
  (∀ (pairs : List ChannelInit) (s t : State) (j : Nat) (d : Channel) (x : ChannelInit), s.running = false →
    exec (.init pairs) s = .next t → j < t.count → pairs[j]? = some x → t.ch[j]? = some d →
    (d.tph = 0 ∧ x.freq ≤ 0 ∨ 1 ≤ d.tph.toNat ∧ d.tph.toNat ≤ s.params.fMaster ∧ 0 < x.freq) ∧
    ((s.params.fMaster : Int) < 2 * x.freq → d.tph.toNat = 1 ∨ d.tph.toNat = 2)) ∧
  (∀ (s t : State) (i f : Int) (d : Channel), 0 ≤ i → i < (s.count : Int) → exec (.setf i f) s = .next t →
    t.ch[i.toNat]? = some d →
    d.tph = 0 ∨ 2 ≤ d.tph.toNat ∧ d.tph.toNat ≤ ceilDiv s.params.fMaster s.params.fMin)

/-- INIT and SETF check frequencies differently (70_reset_and_hazards.md R193, a derivation of the spec): a positive
frequency below F_MIN gives an enabled tone through INIT, and silences the same channel through SETF. -/
def Obligations.FrequencyBelowMinimumTonesByInitSilencesBySetf : Prop :=
  ∀ (s : State) (p : Pin) (f : Int), s.running = false → s.ch.length = s.params.cap → 0 < f →
    f < (s.params.fMin : Int) →
    ∃ t c u d, exec (.init [{ pin := p, freq := f }]) s = .next t ∧ t.ch[0]? = some c ∧ c.en = true ∧
      0 < c.tph.toNat ∧ exec (.setf 0 f) t = .next u ∧ u.ch[0]? = some d ∧ d.tph = 0 ∧ d.en = true

/-- `mute idx` stands for `setf idx, 0` (30_encoding.md R87): delivered to an idle decoder, it writes LOW to a valid
channel's pin at once and zeroes its tick count. -/
def Obligations.MuteSilencesAValidChannel : Prop :=
  ∀ (s : State) (i : Int) (c : Channel), s.dec.mode = .idle → 0 ≤ i → i ≤ 127 → i < (s.count : Int) →
    s.ch[i.toNat]? = some c →
    ∃ t d, runEvents (AsmLine.events (.mute i)) s = .next t ∧ t.ch[i.toNat]? = some d ∧
      d.tph = 0 ∧ d.lvl = .low ∧ d.en = c.en ∧ t.outputs = s.outputs ++ [.pinWrite c.pin .low]

/-! ## EN and DIS -/

/-- EN sets the channel's enabled flag only (R126); it completes with every index, and with an invalid one does
nothing. -/
def Obligations.EnableSetsOnlyItsFlag : Prop :=
  ∀ (s : State) (i : Int),
    (∀ c : Channel, 0 ≤ i → i < (s.count : Int) → s.ch[i.toNat]? = some c →
      ∃ t, exec (.en i) s = .next t ∧ t.ch[i.toNat]? = some { c with en := true } ∧
        (∀ j, j ≠ i.toNat → t.ch[j]? = s.ch[j]?) ∧ t.ch.length = s.ch.length ∧
        t.outputs = s.outputs ∧ t.running = s.running ∧ t.count = s.count ∧ t.dec = s.dec ∧ t.inputs = s.inputs ∧
        t.params = s.params) ∧
    (i < 0 ∨ (s.count : Int) ≤ i → exec (.en i) s = .next s)

/-- DIS clears the channel's enabled flag only: tick count, counter and level are retained (R128); it completes with
every index, and with an invalid one does nothing. -/
def Obligations.DisableClearsOnlyItsFlag : Prop :=
  ∀ (s : State) (i : Int),
    (∀ c : Channel, 0 ≤ i → i < (s.count : Int) → s.ch[i.toNat]? = some c →
      ∃ t, exec (.dis i) s = .next t ∧ t.ch[i.toNat]? = some { c with en := false } ∧
        (∀ j, j ≠ i.toNat → t.ch[j]? = s.ch[j]?) ∧ t.ch.length = s.ch.length ∧
        t.outputs = s.outputs ∧ t.running = s.running ∧ t.count = s.count ∧ t.dec = s.dec ∧ t.inputs = s.inputs ∧
        t.params = s.params) ∧
    (i < 0 ∨ (s.count : Int) ≤ i → exec (.dis i) s = .next s)

/-- The enable mask (10_state.md R29): EN sets exactly bit i, DIS clears exactly bit i. The rule's last clause is read
of EN and DIS (log 13). -/
def Obligations.EnableMaskChangesOneBit : Prop :=
  ∀ (s : State) (i : Int) (c : Channel), 0 ≤ i → i < (s.count : Int) → s.ch[i.toNat]? = some c →
    ∃ t u, exec (.en i) s = .next t ∧ exec (.dis i) s = .next u ∧
      (∀ j, (enMask t.ch).testBit j = (decide (j = i.toNat) || (enMask s.ch).testBit j)) ∧
      (∀ j, (enMask u.ch).testBit j = (!decide (j = i.toNat) && (enMask s.ch).testBit j))

/-- Repeating a command (20_memory.md R63, a derivation of the spec): a repeated EN or DIS changes nothing more; a
repeated SETF clears the counter again whatever it had reached, and each silencing SETF writes the pin again. -/
def Obligations.RepeatedCommands : Prop :=
  (∀ (s t : State) (i : Int), exec (.en i) s = .next t → exec (.en i) t = .next t) ∧
  (∀ (s t : State) (i : Int), exec (.dis i) s = .next t → exec (.dis i) t = .next t) ∧
  (∀ (s : State) (i f : Int) (c : Channel), 0 ≤ i → i < (s.count : Int) → s.ch[i.toNat]? = some c →
    ∃ t d, exec (.setf i f) s = .next t ∧ t.ch[i.toNat]? = some d ∧ d.cnt = 0) ∧
  (∀ (s t u : State) (i f : Int) (c : Channel), 0 ≤ i → i < (s.count : Int) → s.ch[i.toNat]? = some c →
    f < (s.params.fMin : Int) → exec (.setf i f) s = .next t → exec (.setf i f) t = .next u →
    u.outputs = s.outputs ++ [.pinWrite c.pin .low, .pinWrite c.pin .low])

/-! ## The converter (40_tick_converter.md) -/

/-- `ticksFor(f, M)` is the smallest k with k·f ≥ M, equal to (M + f − 1) div f (R100). -/
def Obligations.TicksForIsTheLeastMultiple : Prop :=
  ∀ (f : Int) (m : Nat), 1 ≤ f → 1 ≤ m →
    (m : Int) ≤ (ticksFor f m : Int) * f ∧ (∀ k : Nat, (m : Int) ≤ (k : Int) * f → ticksFor f m ≤ k) ∧
    (ticksFor f m : Int) = ((m : Int) + f - 1) / f

/-- The range of the result (R102, a derivation of the spec; its clause on M read for M ≥ 2, log 19): 1 to M, M
exactly at f = 1, 1 exactly from f = M on, and never truncated by the 20-bit register; in range of SETF it is 2 to
ceil_div(M, F_MIN). -/
def Obligations.TicksForRange : Prop :=
  (∀ (f : Int) (m : Nat), 1 ≤ f → 1 ≤ m →
    1 ≤ ticksFor f m ∧ ticksFor f m ≤ m ∧ (2 ≤ m → (ticksFor f m = m ↔ f = 1)) ∧ (ticksFor f m = 1 ↔ (m : Int) ≤ f)) ∧
  (∀ (p : Params) (f : Int), 1 ≤ f → (BitVec.ofNat 20 (ticksFor f p.fMaster)).toNat = ticksFor f p.fMaster) ∧
  (∀ (p : Params) (f : Int), (p.fMin : Int) ≤ f → 2 * f ≤ (p.fMaster : Int) →
    2 ≤ ticksFor f p.fMaster ∧ ticksFor f p.fMaster ≤ ceilDiv p.fMaster p.fMin)

/-- The laws of the converter (R103, a derivation of the spec): exact when f divides M, rounding always upward,
antitone in f, not injective. -/
def Obligations.TicksForLaws : Prop :=
  (∀ (f : Int) (m : Nat), 1 ≤ f → 1 ≤ m → f ∣ (m : Int) → (ticksFor f m : Int) = (m : Int) / f) ∧
  (∀ (f : Int) (m : Nat), 1 ≤ f → 1 ≤ m →
    (m : Int) ≤ (ticksFor f m : Int) * f ∧ ((ticksFor f m : Int) - 1) * f < (m : Int)) ∧
  (∀ (f g : Int) (m : Nat), 1 ≤ f → f ≤ g → 1 ≤ m → ticksFor g m ≤ ticksFor f m) ∧
  (∀ f : Int, 2667 ≤ f → f ≤ 3999 → ticksFor f 8000 = 3)

/-- The document's and the spec's worked values at M = 8000 (R106). -/
def Obligations.TicksForWorkedExamples : Prop :=
  ticksFor 1000 8000 = 8 ∧ ticksFor 60 8000 = 134 ∧ ticksFor 440 8000 = 19 ∧ ticksFor 4000 8000 = 2 ∧
  ticksFor 2667 8000 = 3 ∧ ticksFor 2666 8000 = 4 ∧ ticksFor 1 8000 = 8000 ∧ ticksFor 8000 8000 = 1 ∧
  ticksFor 8001 8000 = 1 ∧ ticksFor 524287 8000 = 1 ∧ ticksFor 30 8000 = 267 ∧ ticksFor 61 8000 = 132

/-! ## The tick step (42_tick_step.md) -/

/-- One Tick (R140, R141, R143): every channel in use, and no other, takes the per-channel step; its flags, pin and
tick count stay, as does the rest of the state; the outputs are the edge events' pin writes, one each, in index order.
-/
def Obligations.TickStepsEveryChannelInIndexOrder : Prop :=
  ∀ (s : State) (es : List Event), ∃ t, step { s with inputs := .tick :: es } = .next t ∧
    (∀ (i : Nat) (c : Channel), i < s.count → s.ch[i]? = some c →
      ∃ d : Channel, t.ch[i]? = some d ∧ d.pin = c.pin ∧ d.tph = c.tph ∧ d.en = c.en ∧
        if 0 < c.tph.toNat ∧ c.tph.toNat ≤ c.cnt.toNat
        then d.cnt = 0 ∧ d.lvl = (if c.en = true then c.lvl.flip else .low)
        else d.cnt.toNat = (c.cnt.toNat + 1) % 2 ^ 20 ∧ d.lvl = c.lvl) ∧
    (∀ i, s.count ≤ i → t.ch[i]? = s.ch[i]?) ∧ t.ch.length = s.ch.length ∧
    t.outputs = s.outputs ++ (List.range s.count).flatMap (fun i =>
      match s.ch[i]? with
      | none => []
      | some c =>
        if 0 < c.tph.toNat ∧ c.tph.toNat ≤ c.cnt.toNat
        then [.pinWrite c.pin (if c.en = true then c.lvl.flip else .low)] else []) ∧
    t.running = s.running ∧ t.count = s.count ∧ t.dec = s.dec ∧ t.inputs = es ∧ t.params = s.params

/-- A tick issues at most `count` outputs, all of them pin writes (R145). -/
def Obligations.TickIssuesAtMostCountPinWrites : Prop :=
  ∀ (s t : State) (es : List Event), step { s with inputs := .tick :: es } = .next t →
    ∃ os, t.outputs = s.outputs ++ os ∧ os.length ≤ s.count ∧ ∀ o ∈ os, o.isPinWrite = true

/-- Channels are independent (R142, a derivation of the spec): two instances that agree on everything but channels
other than i keep agreeing on channel i, whatever the events, commands for the other channels included. -/
def Obligations.OtherChannelsDoNotMatter : Prop :=
  ∀ (i : Nat) (s t : State) (es : List Event), s.params = t.params → s.running = t.running → s.count = t.count →
    s.dec = t.dec → s.ch[i]? = t.ch[i]? →
    ∃ u v, runEvents es s = .next u ∧ runEvents es t = .next v ∧ u.ch[i]? = v.ch[i]? ∧ u.running = v.running ∧
      u.count = v.count ∧ u.dec = v.dec

/-- Counting edge events (R147, R149, derivations of the spec; log 11): over n ticks a channel with tick count T > 0
and counter c0 ≤ T has (n + c0) div (T + 1) edge events; its counter ends at (n + c0) mod (T + 1); if it is enabled
its level is flipped that many times; and if it alone holds its pin, that many writes are made to the pin. -/
def Obligations.EdgeCountIsFloorByTPlusOne : Prop :=
  ∀ (s : State) (i n : Nat) (c : Channel), i < s.count → s.ch[i]? = some c → 0 < c.tph.toNat →
    c.cnt.toNat ≤ c.tph.toNat →
    (List.range n).countP (s.edgeAt i) = (n + c.cnt.toNat) / (c.tph.toNat + 1) ∧
    ∃ t d os, runEvents (List.replicate n .tick) s = .next t ∧ t.ch[i]? = some d ∧ t.outputs = s.outputs ++ os ∧
      d.cnt.toNat = (n + c.cnt.toNat) % (c.tph.toNat + 1) ∧
      (c.en = true → d.lvl = Level.flips ((n + c.cnt.toNat) / (c.tph.toNat + 1)) c.lvl) ∧
      d.pin = c.pin ∧ d.tph = c.tph ∧ d.en = c.en ∧
      (s.ownsPin i c → (writesOn c.pin os).length = (n + c.cnt.toNat) / (c.tph.toNat + 1))

/-- Edge spacing is T + 1 (R146, a derivation of the spec; log 11): tick number k of a stretch is an edge event of the
channel exactly when k is T − c0 + 1 + m·(T + 1) for some m; an edge event clears the counter and writes the new level
to the channel's pin; and on a pin the channel alone holds nothing else is written. -/
def Obligations.EdgeSpacingIsTPlusOne : Prop :=
  ∀ (s : State) (i k : Nat) (c : Channel), i < s.count → s.ch[i]? = some c → 0 < c.tph.toNat →
    c.cnt.toNat ≤ c.tph.toNat → 1 ≤ k →
    (s.edgeAt i (k - 1) = true ↔ ∃ m, k = c.tph.toNat - c.cnt.toNat + 1 + m * (c.tph.toNat + 1)) ∧
    ∃ t u d os, runEvents (List.replicate (k - 1) .tick) s = .next t ∧ runEvents [.tick] t = .next u ∧
      u.ch[i]? = some d ∧ u.outputs = t.outputs ++ os ∧
      (s.edgeAt i (k - 1) = true → d.cnt = 0 ∧ .pinWrite c.pin d.lvl ∈ os) ∧
      (s.ownsPin i c → writesOn c.pin os = if s.edgeAt i (k - 1) = true then [d.lvl] else [])

/-- The square wave (R148, a derivation of the spec; log 11): an enabled channel with T > 0 left alone from `cnt` = 0
keeps its level for exactly T + 1 ticks, then the other level for exactly T + 1 ticks, and so on: period 2·(T + 1)
ticks, duty 50 %. -/
def Obligations.EnabledChannelMakesASquareWave : Prop :=
  ∀ (s : State) (i n : Nat) (c : Channel), i < s.count → s.ch[i]? = some c → 0 < c.tph.toNat → c.cnt = 0 →
    c.en = true →
    ∃ t d, runEvents (List.replicate n .tick) s = .next t ∧ t.ch[i]? = some d ∧
      d.lvl = (if n % (2 * (c.tph.toNat + 1)) < c.tph.toNat + 1 then c.lvl else c.lvl.flip)

/-- A disabled channel with T > 0 (R150, a derivation of the spec): edge events at exactly the ticks an enabled one
would have them; at each its counter is cleared, its level set LOW and LOW written to its pin; at every other tick its
counter advances. -/
def Obligations.DisabledChannelKeepsTheEdgeGridWritingLow : Prop :=
  ∀ (s : State) (i k : Nat) (c : Channel), i < s.count → s.ch[i]? = some c → 0 < c.tph.toNat →
    c.cnt.toNat ≤ c.tph.toNat → c.en = false →
    s.edgeAt i k = (s.setChannel i { c with en := true }).edgeAt i k ∧
    ∃ t b u d os, runEvents (List.replicate k .tick) s = .next t ∧ t.ch[i]? = some b ∧
      runEvents [.tick] t = .next u ∧ u.ch[i]? = some d ∧ u.outputs = t.outputs ++ os ∧
      (s.edgeAt i k = true → d.cnt = 0 ∧ d.lvl = .low ∧ .pinWrite c.pin .low ∈ os) ∧
      (s.edgeAt i k = false → d.cnt.toNat = b.cnt.toNat + 1 ∧ d.lvl = b.lvl) ∧
      (s.ownsPin i c → writesOn c.pin os = if s.edgeAt i k = true then [.low] else [])

/-- Disable, d ticks, enable (R151, a derivation of the spec): the counter is on its grid as if nothing had happened.
With no edge event between, the level is kept, and for a channel enabled before, the whole state is that of the ticks
alone. With at least one, the level is LOW at the EN, and the first edge event after it drives the channel HIGH. -/
def Obligations.DisableThenEnableKeepsThePhase : Prop :=
  ∀ (s : State) (i d : Nat) (c : Channel), s.dec.mode = .idle → i < s.count → i ≤ 127 → s.ch[i]? = some c →
    0 < c.tph.toNat → c.cnt.toNat ≤ c.tph.toNat →
    ∃ t e u g, runEvents (Instr.events (.dis i) ++ List.replicate d .tick ++ Instr.events (.en i)) s = .next t ∧
      t.ch[i]? = some e ∧ e.en = true ∧ e.tph = c.tph ∧ e.pin = c.pin ∧
      e.cnt.toNat = (d + c.cnt.toNat) % (c.tph.toNat + 1) ∧
      (edgeCount c.tph.toNat c.cnt.toNat d = 0 → e.lvl = c.lvl ∧
        (c.en = true → runEvents (List.replicate d .tick) s = .next t)) ∧
      (edgeCount c.tph.toNat c.cnt.toNat d ≠ 0 → e.lvl = .low) ∧
      runEvents (List.replicate (c.tph.toNat - e.cnt.toNat + 1) .tick) t = .next u ∧ u.ch[i]? = some g ∧
      g.cnt = 0 ∧ g.lvl = e.lvl.flip ∧ ∃ os, u.outputs = t.outputs ++ os ∧ .pinWrite c.pin e.lvl.flip ∈ os

/-- A channel with tick count 0 (R152, a derivation of the spec), enabled or not: no edge event ever, so never
toggled, and its pin, if it alone holds it, never written by ticks; its counter free-runs modulo 2^20. -/
def Obligations.SilentChannelIsNeverTouchedByTicks : Prop :=
  ∀ (s : State) (i n : Nat) (c : Channel), i < s.count → s.ch[i]? = some c → c.tph = 0 →
    s.edgeAt i n = false ∧
    ∃ t d os, runEvents (List.replicate n .tick) s = .next t ∧ t.ch[i]? = some d ∧ t.outputs = s.outputs ++ os ∧
      d.lvl = c.lvl ∧ d.en = c.en ∧ d.tph = 0 ∧ d.cnt.toNat = (c.cnt.toNat + n) % 2 ^ 20 ∧
      (s.ownsPin i c → writesOn c.pin os = [])

/-- The latency of DIS (70_reset_and_hazards.md R190, a derivation of the spec): with (tph, cnt) = (T, c) at the DIS,
the level, and the pin if the channel alone holds it, stay as they are for T − c ticks, and tick number T − c + 1
forces LOW and writes it. -/
def Obligations.DisableTakesEffectAtTheNextEdge : Prop :=
  ∀ (s : State) (i : Nat) (c : Channel), s.dec.mode = .idle → i < s.count → i ≤ 127 → s.ch[i]? = some c →
    0 < c.tph.toNat → c.cnt.toNat ≤ c.tph.toNat →
    (∀ k, k ≤ c.tph.toNat - c.cnt.toNat →
      ∃ t d os, runEvents (Instr.events (.dis i) ++ List.replicate k .tick) s = .next t ∧ t.ch[i]? = some d ∧
        t.outputs = s.outputs ++ os ∧ d.lvl = c.lvl ∧ (s.ownsPin i c → writesOn c.pin os = [])) ∧
    ∃ t d os, runEvents (Instr.events (.dis i) ++ List.replicate (c.tph.toNat - c.cnt.toNat + 1) .tick) s = .next t ∧
      t.ch[i]? = some d ∧ t.outputs = s.outputs ++ os ∧ d.lvl = .low ∧ d.cnt = 0 ∧ .pinWrite c.pin .low ∈ os ∧
      (s.ownsPin i c → writesOn c.pin os = [.low])

/-- Phase restart (70_reset_and_hazards.md R192, a derivation of the spec): a host that re-sends an in-range SETF with
at most T ticks after each prevents the channel from ever toggling: its level never changes and its pin, if it alone
holds it, is never written. -/
def Obligations.FrequentSetfPreventsToggling : Prop :=
  ∀ (s : State) (i k m : Nat) (f : Int) (c : Channel), s.dec.mode = .idle → i < s.count → i ≤ 127 →
    s.ch[i]? = some c → (s.params.fMin : Int) ≤ f → 2 * f ≤ (s.params.fMaster : Int) →
    k ≤ ticksFor f s.params.fMaster →
    ∃ t d os, runEvents (List.replicate m (Instr.events (.setf i f) ++ List.replicate k .tick)).flatten s = .next t ∧
      t.ch[i]? = some d ∧ t.outputs = s.outputs ++ os ∧ d.lvl = c.lvl ∧ (s.ownsPin i c → writesOn c.pin os = [])

/-! ## Whole-machine rules -/

/-- The per-channel state machine (10_state.md R42, a derivation of the spec): the pair (en, lvl) after INIT; after
each of the five events, for each of the four pairs; and the fourth pair, disabled-high, is reachable. -/
def Obligations.ChannelStateMachineTable : Prop :=
  (∀ (s t : State) (pairs : List ChannelInit) (j : Nat) (x : ChannelInit) (d : Channel), s.running = false →
    exec (.init pairs) s = .next t → j < t.count → pairs[j]? = some x → t.ch[j]? = some d →
    (d.en, d.lvl) = (decide (0 < x.freq), .low)) ∧
  (∀ (s : State) (i : Nat) (c : Channel) (f g : Int), i < s.count → s.ch[i]? = some c →
    (s.params.fMin : Int) ≤ f → 2 * f ≤ (s.params.fMaster : Int) →
    g < (s.params.fMin : Int) ∨ (s.params.fMaster : Int) < 2 * g →
    ∃ a b d e : State, exec (.en i) s = .next a ∧ exec (.dis i) s = .next b ∧ exec (.setf i g) s = .next d ∧
      exec (.setf i f) s = .next e ∧
      (a.ch[i]?).map (fun x => (x.en, x.lvl)) = some (true, c.lvl) ∧ a.outputs = s.outputs ∧
      (b.ch[i]?).map (fun x => (x.en, x.lvl)) = some (false, c.lvl) ∧ b.outputs = s.outputs ∧
      (d.ch[i]?).map (fun x => (x.en, x.lvl)) = some (c.en, .low) ∧ d.outputs = s.outputs ++ [.pinWrite c.pin .low] ∧
      (e.ch[i]?).map (fun x => (x.en, x.lvl)) = some (c.en, c.lvl) ∧ e.outputs = s.outputs) ∧
  (∀ (s : State) (i : Nat) (c : Channel) (es : List Event), i < s.count → s.ch[i]? = some c → 0 < c.tph.toNat →
    c.tph.toNat ≤ c.cnt.toNat →
    ∃ t os, step { s with inputs := .tick :: es } = .next t ∧ t.outputs = s.outputs ++ os ∧
      ((c.en, c.lvl) = (false, .low) → (t.ch[i]?).map (fun x => (x.en, x.lvl)) = some (false, .low) ∧
        .pinWrite c.pin .low ∈ os) ∧
      ((c.en, c.lvl) = (false, .high) → (t.ch[i]?).map (fun x => (x.en, x.lvl)) = some (false, .low) ∧
        .pinWrite c.pin .low ∈ os) ∧
      ((c.en, c.lvl) = (true, .low) → (t.ch[i]?).map (fun x => (x.en, x.lvl)) = some (true, .high) ∧
        .pinWrite c.pin .high ∈ os) ∧
      ((c.en, c.lvl) = (true, .high) → (t.ch[i]?).map (fun x => (x.en, x.lvl)) = some (true, .low) ∧
        .pinWrite c.pin .low ∈ os)) ∧
  (∃ (es : List Event) (t : State) (c : Channel), runEvents es State.reset = .next t ∧ 0 < t.count ∧
    t.ch[0]? = some c ∧ c.en = false ∧ c.lvl = .high)

/-- No operation but two issues pin writes (20_memory.md R56, its "no others" half): a step that adds a pin write is a
Tick, each write being the edge toggle of a channel in use, or the silence branch of SETF. That those two do issue
theirs is stated by TickStepsEveryChannelInIndexOrder and SetfOutOfRangeSilencesAtOnce. -/
def Obligations.OnlyEdgesAndSilencingWritePins : Prop :=
  ∀ (s t : State) (e : Event) (es : List Event), step { s with inputs := e :: es } = .next t →
    ∃ os, t.outputs = s.outputs ++ os ∧ ∀ (p : Pin) (l : Level), Output.pinWrite p l ∈ os →
      (e = .tick ∧ ∃ j c, j < s.count ∧ s.ch[j]? = some c ∧ 0 < c.tph.toNat ∧ c.tph.toNat ≤ c.cnt.toNat ∧
        p = c.pin ∧ l = (if c.en = true then c.lvl.flip else .low)) ∨
      (∃ w i f c, e = .cmd w ∧ s.dec.mode = .idle ∧ decodeFirst w = .command (.setf i f) ∧ 0 ≤ i ∧
        i < (s.count : Int) ∧ s.ch[i.toNat]? = some c ∧
        (f < (s.params.fMin : Int) ∨ (s.params.fMaster : Int) < 2 * f) ∧ p = c.pin ∧ l = .low)

/-- TimerStart is issued exactly once per reset, by the first INIT (20_memory.md R57), and `running` is cleared by
reset alone (10_state.md R33): over any steps without a Reset, the TimerStart events issued are one, with the constant
period, if `running` became 1, and none otherwise. -/
def Obligations.TimerStartsOncePerReset : Prop :=
  ∀ (n : Nat) (s t : State), steps n s = .next t → Event.reset ∉ s.inputs.take n →
    timerStarts t.outputs = timerStarts s.outputs ++
      (if s.running = false ∧ t.running = true then [.timerStart (1000000 / s.params.fMaster)] else []) ∧
    (s.running = true → t.running = true)

/-- The bank's length and its pins are fixed at initialization (10_state.md R22, R24, R43): once running, no steps
without a Reset change `count`, the number of records, or a pin. -/
def Obligations.BankIsFixedOnceRunning : Prop :=
  ∀ (n : Nat) (s t : State), steps n s = .next t → Event.reset ∉ s.inputs.take n → s.running = true →
    t.count = s.count ∧ ∀ j : Nat, (t.ch[j]?).map Channel.pin = (s.ch[j]?).map Channel.pin

/-- Who writes the enabled flag (10_state.md R27): once running, an event that changes channel j's flag is a Reset, or
EN j setting it, or DIS j clearing it. In particular SETF never does. -/
def Obligations.OnlyEnableAndDisableWriteTheFlag : Prop :=
  ∀ (s t : State) (e : Event) (es : List Event) (j : Nat) (c d : Channel), s.running = true →
    step { s with inputs := e :: es } = .next t → s.ch[j]? = some c → t.ch[j]? = some d → d.en ≠ c.en →
    e = .reset ∨
    ∃ w, e = .cmd w ∧ s.dec.mode = .idle ∧
      (decodeFirst w = .command (.en j) ∧ d.en = true ∨ decodeFirst w = .command (.dis j) ∧ d.en = false)

/-- At the port level Reset comes before Tick and Tick before Cmd (60_exceptions.md R165). R165 says that `rst` = 1
"overrides both": that such a cycle is the Reset event alone, its tick and its word dropped, is the model's reading
(log 9, DEDUCED), as is the form of the port sample. That a tick is taken before the word offered with it is the
rule's own. -/
def Obligations.PortPriorityIsResetTickCommand : Prop :=
  ∀ (s : State) (w : Word), s.inputs = [] →
    (∀ b v, step (s.sample { rst := true, tick := b, cmdValid := v, cmdWord := w }) = .next (resetStep s)) ∧
    steps 2 (s.sample { rst := false, tick := true, cmdValid := true, cmdWord := w }) =
      andThen (runEvents [.tick] s) (runEvents [.cmd w])

/-- INIT initialises no pin (70_reset_and_hazards.md R195, a derivation of the spec; 10_state.md R36): it leaves every
pin's latch as it was, without a value if it had none; a silencing SETF then gives the channel's pin a level. -/
def Obligations.InitLeavesThePinLatchAlone : Prop :=
  (∀ (p : Params) (q : Pin), pinLatch (State.resetOf p).outputs q = none) ∧
  (∀ (s t : State) (pairs : List ChannelInit) (q : Pin), exec (.init pairs) s = .next t →
    pinLatch t.outputs q = pinLatch s.outputs q) ∧
  (∀ (s t : State) (i : Int) (c : Channel), 0 ≤ i → i < (s.count : Int) → s.ch[i.toNat]? = some c →
    exec (.setf i 0) s = .next t →
    pinLatch t.outputs c.pin = some .low ∧ ∀ q, q ≠ c.pin → pinLatch t.outputs q = pinLatch s.outputs q)

/-! ## Invariants -/

/-- The invariant holds after reset, for every legal instance (10_state.md R37 to R39, derivations of the spec, and
R44). `State.reset` is the instance with the default parameters, the model's choice (log 1). -/
def Obligations.ResetStateMeetsTheInvariant : Prop :=
  (∀ p : Params, (State.resetOf p).Inv ∧ (State.resetOf p).LevelIsLastWrite) ∧
  State.reset = State.resetOf Params.default

/-- Every step keeps the invariant (10_state.md R21, R25, R34, and R37, R38, R39, derivations of the spec): the bank
keeps CAP records, count ≤ CAP, unused channels keep their reset values, tph ≤ F_MASTER, cnt ≤ tph while tph > 0, tph
= 0 implies LOW, and seen < total while payload is being received. -/
def Obligations.EveryStepKeepsTheInvariant : Prop :=
  ∀ s t : State, s.Inv → step s = .next t → t.Inv

/-- `lvl` is the level last written to the channel's pin since INIT (10_state.md R28): kept by every step, for every
channel that alone holds its pin. -/
def Obligations.EveryStepKeepsLevelAsLastWrite : Prop :=
  ∀ s t : State, s.LevelIsLastWrite → step s = .next t → t.LevelIsLastWrite
end

