-- ==== Sys2Proof/Laws/State.lean ====
section
/-! SUPPORT. One lemma for each field and each update of the state, so that no proof unfolds a record update. -/

namespace Sys2Proof.Machine

section Emit
variable (os : List Output) (s : State)
@[simp] theorem State.emit_params : (s.emit os).params = s.params := rfl
@[simp] theorem State.emit_running : (s.emit os).running = s.running := rfl
@[simp] theorem State.emit_count : (s.emit os).count = s.count := rfl
@[simp] theorem State.emit_ch : (s.emit os).ch = s.ch := rfl
@[simp] theorem State.emit_dec : (s.emit os).dec = s.dec := rfl
@[simp] theorem State.emit_inputs : (s.emit os).inputs = s.inputs := rfl
@[simp] theorem State.emit_outputs : (s.emit os).outputs = s.outputs ++ os := rfl
end Emit

section SetChannel
variable (k : Nat) (c : Channel) (s : State)
@[simp] theorem State.setChannel_params : (s.setChannel k c).params = s.params := rfl
@[simp] theorem State.setChannel_running : (s.setChannel k c).running = s.running := rfl
@[simp] theorem State.setChannel_count : (s.setChannel k c).count = s.count := rfl
@[simp] theorem State.setChannel_ch : (s.setChannel k c).ch = s.ch.set k c := rfl
@[simp] theorem State.setChannel_dec : (s.setChannel k c).dec = s.dec := rfl
@[simp] theorem State.setChannel_inputs : (s.setChannel k c).inputs = s.inputs := rfl
@[simp] theorem State.setChannel_outputs : (s.setChannel k c).outputs = s.outputs := rfl
end SetChannel

section TickStep
variable (s : State)
@[simp] theorem tickStep_params : (tickStep s).params = s.params := rfl
@[simp] theorem tickStep_running : (tickStep s).running = s.running := rfl
@[simp] theorem tickStep_count : (tickStep s).count = s.count := rfl
@[simp] theorem tickStep_ch : (tickStep s).ch = tickBank s.count s.ch := rfl
@[simp] theorem tickStep_dec : (tickStep s).dec = s.dec := rfl
@[simp] theorem tickStep_inputs : (tickStep s).inputs = s.inputs := rfl
@[simp] theorem tickStep_outputs : (tickStep s).outputs = s.outputs ++ tickBankOutputs s.count s.ch := rfl
end TickStep

section ResetStep
variable (s : State)
@[simp] theorem resetStep_params : (resetStep s).params = s.params := rfl
@[simp] theorem resetStep_running : (resetStep s).running = false := rfl
@[simp] theorem resetStep_count : (resetStep s).count = 0 := rfl
@[simp] theorem resetStep_ch : (resetStep s).ch = List.replicate s.params.cap Channel.atReset := rfl
@[simp] theorem resetStep_dec : (resetStep s).dec = Decoder.atReset s.params := rfl
@[simp] theorem resetStep_inputs : (resetStep s).inputs = s.inputs := rfl
@[simp] theorem resetStep_outputs : (resetStep s).outputs = s.outputs := rfl
end ResetStep

section StartBank
variable (pairs : List ChannelInit) (s : State)
@[simp] theorem startBank_params : (startBank pairs s).params = s.params := rfl
@[simp] theorem startBank_running : (startBank pairs s).running = true := rfl
@[simp] theorem startBank_count : (startBank pairs s).count = min pairs.length s.params.cap := rfl
@[simp] theorem startBank_ch :
    (startBank pairs s).ch = initBank s.params (pairs.take s.params.cap) s.ch := rfl
@[simp] theorem startBank_dec : (startBank pairs s).dec = s.dec := rfl
@[simp] theorem startBank_inputs : (startBank pairs s).inputs = s.inputs := rfl
@[simp] theorem startBank_outputs :
    (startBank pairs s).outputs = s.outputs ++ [.timerStart (periodUs s.params)] := rfl
end StartBank

section Channels
variable (c : Channel) (b : Bool) (p : Params) (f : Int)
@[simp] theorem Channel.withEn_pin : (c.withEn b).pin = c.pin := rfl
@[simp] theorem Channel.withEn_tph : (c.withEn b).tph = c.tph := rfl
@[simp] theorem Channel.withEn_cnt : (c.withEn b).cnt = c.cnt := rfl
@[simp] theorem Channel.withEn_en : (c.withEn b).en = b := rfl
@[simp] theorem Channel.withEn_lvl : (c.withEn b).lvl = c.lvl := rfl
@[simp] theorem Channel.silenced_pin : c.silenced.pin = c.pin := rfl
@[simp] theorem Channel.silenced_tph : c.silenced.tph = 0 := rfl
@[simp] theorem Channel.silenced_cnt : c.silenced.cnt = 0 := rfl
@[simp] theorem Channel.silenced_en : c.silenced.en = c.en := rfl
@[simp] theorem Channel.silenced_lvl : c.silenced.lvl = .low := rfl
@[simp] theorem Channel.retuned_pin : (c.retuned p f).pin = c.pin := rfl
@[simp] theorem Channel.retuned_tph : (c.retuned p f).tph = BitVec.ofNat 20 (ticksFor f p.fMaster) := rfl
@[simp] theorem Channel.retuned_cnt : (c.retuned p f).cnt = 0 := rfl
@[simp] theorem Channel.retuned_en : (c.retuned p f).en = c.en := rfl
@[simp] theorem Channel.retuned_lvl : (c.retuned p f).lvl = c.lvl := rfl
@[simp] theorem Channel.ticked_pin : c.ticked.pin = c.pin := by unfold Channel.ticked; split <;> rfl
@[simp] theorem Channel.ticked_tph : c.ticked.tph = c.tph := by unfold Channel.ticked; split <;> rfl
@[simp] theorem Channel.ticked_en : c.ticked.en = c.en := by unfold Channel.ticked; split <;> rfl
end Channels

section SetFrequency
variable (k : Nat) (c : Channel) (f : Int) (s : State)
/-- What SETF does to a selected channel, in full (41_control_commands.md R119). -/
theorem setFrequency_cases :
    (freqInRange s.params f = true ∧ setFrequency k c f s = s.setChannel k (c.retuned s.params f)) ∨
    (freqInRange s.params f = false ∧
      setFrequency k c f s = (s.setChannel k c.silenced).emit [.pinWrite c.pin .low]) := by
  unfold setFrequency
  cases freqInRange s.params f <;> simp
end SetFrequency

/-- What selects a channel: a valid index with its record (10_state.md R23). -/
theorem selected_eq_some {i : Int} {s : State} {k : Nat} {c : Channel} :
    selected i s = some (k, c) ↔ 0 ≤ i ∧ i < (s.count : Int) ∧ k = i.toNat ∧ s.ch[i.toNat]? = some c := by
  unfold selected validIndex
  split <;> rename_i h <;> simp at h
  · simp only [Option.map_eq_some_iff, Prod.mk.injEq]
    constructor
    · rintro ⟨a, ha, rfl, rfl⟩; exact ⟨h.1, h.2, rfl, ha⟩
    · rintro ⟨_, _, rfl, ha⟩; exact ⟨c, ha, rfl, rfl⟩
  · simp; intro h0 h1; omega

theorem selected_invalid {i : Int} {s : State} (h : i < 0 ∨ (s.count : Int) ≤ i) : selected i s = none := by
  unfold selected validIndex
  rw [if_neg]
  simp; omega

/-- EN and DIS, in full: nothing when the index selects no channel, else one flag (R126, R128). -/
theorem setEnabled_cases (i : Int) (b : Bool) (s : State) :
    (selected i s = none ∧ setEnabled i b s = s) ∨
    ∃ k c, selected i s = some (k, c) ∧ setEnabled i b s = s.setChannel k (c.withEn b) := by
  unfold setEnabled
  cases h : selected i s with
  | none => exact .inl ⟨rfl, rfl⟩
  | some kc => exact .inr ⟨kc.1, kc.2, rfl, rfl⟩

end Sys2Proof.Machine
end

