-- ==== Sys2Proof/Laws/Bank.lean ====
section
/-! SUPPORT. What the bank operations leave at each index (42_tick_step.md R140, R142; 41_control_commands.md R112). -/

namespace Sys2Proof.Machine

@[simp] theorem tickBank_length (n : Nat) (cs : List Channel) : (tickBank n cs).length = cs.length := by
  induction n generalizing cs with
  | zero => rfl
  | succ n ih => cases cs <;> simp [tickBank, ih]

/-- The tick step at one index: the per-channel step below n, nothing from n on. -/
theorem tickBank_getElem? (n : Nat) (cs : List Channel) (i : Nat) :
    (tickBank n cs)[i]? = if i < n then (cs[i]?).map Channel.ticked else cs[i]? := by
  induction n generalizing cs i with
  | zero => simp [tickBank]
  | succ n ih =>
    cases cs with
    | nil => simp [tickBank]
    | cons c cs => cases i <;> simp [tickBank, ih]

/-- The pin writes of a tick come from the channels below n, in index order. -/
theorem tickBankOutputs_eq (n : Nat) (cs : List Channel) :
    tickBankOutputs n cs = (cs.take n).flatMap Channel.tickOutputs := by
  induction n generalizing cs with
  | zero => simp [tickBankOutputs]
  | succ n ih => cases cs <;> simp [tickBankOutputs, ih]

theorem initBank_length (p : Params) (xs : List ChannelInit) (cs : List Channel) (h : xs.length ≤ cs.length) :
    (initBank p xs cs).length = cs.length := by
  induction xs generalizing cs with
  | nil => rfl
  | cons x xs ih =>
    cases cs with
    | nil => simp at h
    | cons c cs => simp [initBank, ih cs (by simpa using h)]

/-- INIT at one index: the pair's channel where there is a pair, the old record elsewhere. -/
theorem initBank_getElem? (p : Params) (xs : List ChannelInit) (cs : List Channel) (i : Nat) :
    (initBank p xs cs)[i]? =
      match xs[i]?, cs[i]? with
      | _, none => none
      | none, some c => some c
      | some x, some _ => some (initChannel p x) := by
  induction xs generalizing cs i with
  | nil => cases h : cs[i]? <;> simp [initBank, h]
  | cons x xs ih =>
    cases cs with
    | nil => simp [initBank]
    | cons c cs => cases i <;> simp [initBank, ih]

section SetChannel
variable {s : State} {k : Nat} {c d : Channel}

/-- The record written is there. -/
theorem State.setChannel_self (h : s.ch[k]? = some c) : (s.setChannel k d).ch[k]? = some d := by
  rw [State.setChannel_ch, List.getElem?_set_self]
  exact (List.getElem?_eq_some_iff.1 h).1

/-- Every other record stays. -/
theorem State.setChannel_other {j : Nat} (h : j ≠ k) : (s.setChannel k d).ch[j]? = s.ch[j]? := by
  rw [State.setChannel_ch, List.getElem?_set_ne (Ne.symm h)]

end SetChannel

/-- One channel's write to a pin at a tick. -/
theorem Channel.mem_tickOutputs {c : Channel} {o : Output} :
    o ∈ c.tickOutputs ↔ c.edgeDue = true ∧ o = .pinWrite c.pin c.toggledLevel := by
  unfold Channel.tickOutputs; split <;> simp_all

theorem Channel.tickOutputs_length_le (c : Channel) : c.tickOutputs.length ≤ 1 := by
  unfold Channel.tickOutputs; split <;> simp

@[simp] theorem Level.flip_flip (l : Level) : l.flip.flip = l := by cases l <;> rfl

/-- Bit j of the enable mask is the flag of channel j (10_state.md R29). -/
theorem testBit_enMask (cs : List Channel) (j : Nat) :
    (enMask cs).testBit j = ((cs[j]?).map Channel.en).getD false := by
  induction cs generalizing j with
  | nil => simp [enMask]
  | cons c cs ih =>
    cases j with
    | zero => cases h : c.en <;> simp [enMask, h, Nat.testBit_zero]
    | succ j =>
      rw [Nat.testBit_succ]
      have : (enMask (c :: cs)) / 2 = enMask cs := by
        cases h : c.en <;> simp [enMask, h]; omega
      rw [this, ih]; simp

end Sys2Proof.Machine
end

