-- ==== Sys2Proof/Laws/Converter.lean ====
section
/-! SUPPORT. What the converter answers at f ≥ 1 (40_tick_converter.md R100, R102). -/

namespace Sys2Proof.Machine

theorem ticksFor_of_pos {f : Int} (h : 0 < f) (m : Nat) : ticksFor f m = ceilDiv m f.toNat := by
  simp [ticksFor, h]

/-- `ceil_div(a, b)` is the smallest k with k·b ≥ a (00_scope.md R17). -/
theorem ceilDiv_le_iff {a b : Nat} (hb : 0 < b) (k : Nat) : ceilDiv a b ≤ k ↔ a ≤ k * b := by
  unfold ceilDiv
  rw [← Nat.lt_succ_iff, Nat.div_lt_iff_lt_mul hb, Nat.succ_mul]
  omega

theorem le_ceilDiv_mul {a b : Nat} (hb : 0 < b) : a ≤ ceilDiv a b * b := (ceilDiv_le_iff hb _).1 le_rfl

theorem ceilDiv_le_self {a b : Nat} (hb : 0 < b) : ceilDiv a b ≤ a :=
  (ceilDiv_le_iff hb _).2 (Nat.le_mul_of_pos_right a hb)

theorem ceilDiv_pos {a b : Nat} (ha : 0 < a) (hb : 0 < b) : 0 < ceilDiv a b := by
  have := le_ceilDiv_mul (a := a) hb
  rcases Nat.eq_zero_or_pos (ceilDiv a b) with h | h
  · rw [h] at this; omega
  · exact h

theorem ticksFor_le {f : Int} (h : 0 < f) (m : Nat) : ticksFor f m ≤ m := by
  rw [ticksFor_of_pos h]; exact ceilDiv_le_self (by omega)

theorem ticksFor_pos {f : Int} (h : 0 < f) {m : Nat} (hm : 0 < m) : 0 < ticksFor f m := by
  rw [ticksFor_of_pos h]; exact ceilDiv_pos hm (by omega)

/-- In SETF's range the tick count is 2 to `ceil_div(F_MASTER, F_MIN)` (R102). -/
theorem ticksFor_inRange (p : Params) {f : Int} (h1 : (p.fMin : Int) ≤ f) (h2 : 2 * f ≤ (p.fMaster : Int)) :
    2 ≤ ticksFor f p.fMaster ∧ ticksFor f p.fMaster ≤ ceilDiv p.fMaster p.fMin := by
  have hm := p.fMinRange.1
  rw [ticksFor_of_pos (by omega)]
  constructor
  · by_contra h
    have := (ceilDiv_le_iff (a := p.fMaster) (b := f.toNat) (by omega) 1).1 (by omega)
    omega
  · exact (ceilDiv_le_iff (by omega) _).2
      ((le_ceilDiv_mul (by omega)).trans (Nat.mul_le_mul_left _ (by omega : p.fMin ≤ f.toNat)))

/-- Every tick count of an instance fits its 20-bit register (R102). -/
theorem ticksFor_toNat (p : Params) {f : Int} (h : 0 < f) :
    (BitVec.ofNat 20 (ticksFor f p.fMaster)).toNat = ticksFor f p.fMaster := by
  have h1 := ticksFor_le h p.fMaster
  have h2 := p.fMasterRange.2
  rw [BitVec.toNat_ofNat]
  exact Nat.mod_eq_of_lt (by omega)

end Sys2Proof.Machine
end

