-- ==== Sys2Proof/Laws/Encoding.lean ====
section
/-! SUPPORT. The fields of a word put together from fields, and what each format decodes to (30_encoding.md R71). -/

namespace Sys2Proof

section Fields
variable (op : BitVec 4) (a : BitVec 8) (f : BitVec 20)

/-- The number of a word of formats F, I and P: opcode, eight bits, twenty bits. -/
theorem fields_toNat : (op ++ a ++ f : Word).toNat = op.toNat * 2 ^ 28 + a.toNat * 2 ^ 20 + f.toNat := by
  have ha := a.isLt
  have hf := f.isLt
  have h1 := BitVec.toNat_append op a
  have h2 := BitVec.toNat_append (op ++ a) f
  rw [← Nat.shiftLeft_add_eq_or_of_lt ha, Nat.shiftLeft_eq] at h1
  rw [← Nat.shiftLeft_add_eq_or_of_lt hf, Nat.shiftLeft_eq, h1] at h2
  exact h2.trans (by omega)

@[simp] theorem opOf_fields : opOf (op ++ a ++ f) = op := by
  have := fields_toNat op a f
  have ha := a.isLt
  have hf := f.isLt
  have ho := op.isLt
  apply BitVec.eq_of_toNat_eq
  simp only [opOf, BitVec.extractLsb'_toNat, this, Nat.shiftRight_eq_div_pow]
  omega

theorem midField_fields : (op ++ a ++ f : Word).extractLsb' 20 8 = a := by
  have := fields_toNat op a f
  have ha := a.isLt
  have hf := f.isLt
  apply BitVec.eq_of_toNat_eq
  simp only [BitVec.extractLsb'_toNat, this, Nat.shiftRight_eq_div_pow]
  omega

@[simp] theorem freqBitsOf_fields : freqBitsOf (op ++ a ++ f) = f := by
  have := fields_toNat op a f
  have hf := f.isLt
  apply BitVec.eq_of_toNat_eq
  simp only [freqBitsOf, BitVec.extractLsb'_toNat, this, Nat.shiftRight_eq_div_pow]
  omega

@[simp] theorem pinOf_fields : pinOf (op ++ a ++ f) = a := midField_fields op a f

@[simp] theorem idxOf_fields : idxOf (op ++ a ++ f) = a.toInt := by rw [idxOf, midField_fields]

@[simp] theorem freqOf_fields : freqOf (op ++ a ++ f) = f.toInt := by rw [freqOf, freqBitsOf_fields]

end Fields

/-- An index in its field's range comes back from the field (R74). -/
theorem idx_roundTrip {i : Int} (h : idxEncodable i = true) : (BitVec.ofInt 8 i).toInt = i := by
  simp [idxEncodable] at h
  rw [BitVec.toInt_ofInt]
  exact Int.bmod_eq_of_le (by omega) (by omega)

/-- A frequency in its field's range comes back from the field (R75). -/
theorem freq_roundTrip {f : Int} (h : freqEncodable f = true) : (BitVec.ofInt 20 f).toInt = f := by
  simp [freqEncodable] at h
  rw [BitVec.toInt_ofInt]
  exact Int.bmod_eq_of_le (by omega) (by omega)

/-- Every index the field can hold is in its range (R74). -/
theorem idxEncodable_idxOf (w : Word) : idxEncodable (idxOf w) = true := by
  have h1 := BitVec.le_toInt (w.extractLsb' 20 8)
  have h2 := BitVec.toInt_lt (x := w.extractLsb' 20 8)
  rw [idxEncodable, idxOf, decide_eq_true_iff]
  omega

/-- Every frequency the field can hold is in its range (R75). -/
theorem freqEncodable_freqOf (w : Word) : freqEncodable (freqOf w) = true := by
  have h1 := BitVec.le_toInt (freqBitsOf w)
  have h2 := BitVec.toInt_lt (x := freqBitsOf w)
  rw [freqEncodable, freqOf, decide_eq_true_iff]
  omega

/-- A payload pair in range comes back from its word (R77). -/
theorem decodePayload_encodePayload {x : ChannelInit} (h : freqEncodable x.freq = true) :
    decodePayload (encodePayload x) = x := by
  obtain ⟨p, f⟩ := x
  simp only [decodePayload, encodePayload, pinOf_fields, freqOf_fields, freq_roundTrip h]

section Formats
variable (op : BitVec 4) (i : Int)

@[simp] theorem opOf_encodeF (f : Int) : opOf (encodeF op i f) = op := opOf_fields op _ _

@[simp] theorem idxOf_encodeF (f : Int) : idxOf (encodeF op i f) = (BitVec.ofInt 8 i).toInt := idxOf_fields op _ _

@[simp] theorem freqOf_encodeF (f : Int) : freqOf (encodeF op i f) = (BitVec.ofInt 20 f).toInt :=
  freqOf_fields op _ _

@[simp] theorem opOf_encodeI : opOf (encodeI op i) = op := opOf_fields op _ _

@[simp] theorem idxOf_encodeI : idxOf (encodeI op i) = (BitVec.ofInt 8 i).toInt := idxOf_fields op _ _

@[simp] theorem opOf_encodeN : opOf (encodeN op) = op := by
  have h : (encodeN op).toNat = op.toNat * 2 ^ 28 := by
    refine (BitVec.toNat_append _ _).trans ?_
    simp [Nat.shiftLeft_eq]
  have ho := op.isLt
  apply BitVec.eq_of_toNat_eq
  simp only [opOf, BitVec.extractLsb'_toNat, h, Nat.shiftRight_eq_div_pow]
  omega

end Formats

/-- The number of an INIT header: `0x10000000 + n` (R84). -/
theorem header_toNat (n : BitVec 8) : (encodeHeader n).toNat = 0x10000000 + n.toNat := by
  have hn := n.isLt
  have h := BitVec.toNat_append (0x1#4 ++ 0x0#20) n
  rw [← Nat.shiftLeft_add_eq_or_of_lt hn, Nat.shiftLeft_eq] at h
  have h1 : (0x1#4 ++ 0x0#20 : BitVec 24).toNat = 2 ^ 20 := by decide
  rw [h1] at h
  exact h.trans (by omega)

@[simp] theorem opOf_header (n : BitVec 8) : opOf (encodeHeader n) = 0x1#4 := by
  have hn := n.isLt
  apply BitVec.eq_of_toNat_eq
  simp only [opOf, BitVec.extractLsb'_toNat, header_toNat, Nat.shiftRight_eq_div_pow, BitVec.toNat_ofNat]
  omega

@[simp] theorem countOf_header (n : BitVec 8) : countOf (encodeHeader n) = n := by
  have hn := n.isLt
  apply BitVec.eq_of_toNat_eq
  simp only [countOf, BitVec.extractLsb'_toNat, header_toNat, Nat.shiftRight_eq_div_pow]
  omega

/-- An INIT header is the header of its COUNT, or a whole INIT when COUNT = 0 (R78). -/
theorem decodeFirst_header (n : BitVec 8) :
    decodeFirst (encodeHeader n) = if n = 0 then .command (.init []) else .initHeader n := by
  simp [decodeFirst]

/-- What a first word can decode to: a header is a header of at least one payload word (R78). -/
theorem decodeFirst_header_inv {w : Word} {n : BitVec 8} (h : decodeFirst w = .initHeader n) :
    opOf w = 0x1#4 ∧ countOf w = n ∧ n ≠ 0 := by
  unfold decodeFirst at h
  split at h <;> try cases h
  rename_i h1
  split at h
  · cases h
  · cases h; exact ⟨h1, rfl, by assumption⟩

/-- What a word list with a command at its head begins with: the one word of the command, or an INIT header and its
payload (R70, R79). -/
theorem decode_cases {ws rest : List Word} {i : Instr} (h : decode ws = .ok (i, rest)) :
    ∃ w us, ws = w :: us ∧
      ((decodeFirst w = .command i ∧ us = rest) ∨
       ∃ n, decodeFirst w = .initHeader n ∧ n.toNat ≤ us.length ∧
         i = .init ((us.take n.toNat).map decodePayload) ∧ rest = us.drop n.toNat) := by
  cases ws with
  | nil => simp [decode] at h
  | cons w us =>
    refine ⟨w, us, rfl, ?_⟩
    simp only [decode] at h
    cases hd : decodeFirst w with
    | command j =>
      rw [hd] at h
      injection h with h
      injection h with h1 h2
      exact .inl ⟨by rw [h1], h2⟩
    | initHeader n =>
      rw [hd] at h
      simp only at h
      split at h
      · injection h with h
        injection h with h1 h2
        exact .inr ⟨n, rfl, by assumption, h1.symm, h2.symm⟩
      · cases h

/-- A word with an opcode that does nothing decodes to NOP or to a reserved command (R72). -/
theorem decodeFirst_idle {w : Word} (h : opOf w = 0x0#4 ∨ 5 ≤ (opOf w).toNat) : ∃ i, decodeFirst w = .command i ∧
    i ∈ [Instr.nop, .rsvd5, .rsvd6, .rsvd7, .rsvd8, .rsvd9, .rsvdA, .rsvdB, .rsvdC, .rsvdD, .rsvdE, .rsvdF] := by
  unfold decodeFirst
  split
  case h_2 h1 => rw [h1] at h; exact absurd h (by decide)
  case h_3 h1 => rw [h1] at h; exact absurd h (by decide)
  case h_4 h1 => rw [h1] at h; exact absurd h (by decide)
  case h_5 h1 => rw [h1] at h; exact absurd h (by decide)
  all_goals exact ⟨_, rfl, by decide⟩

end Sys2Proof
end

