-- ==== Sys2Proof/Laws/PerInstr.lean ====
section
/-! SUPPORT. A statement for every command as syntax: its first word carries its opcode (30_encoding.md R71, R72), and
its words are as many as it has (R70). -/

namespace Sys2Proof.Laws.FirstWord

/-- The canonical words of a command begin with a word that carries the command's opcode in `w[31:28]`, and their
number is the command's length. -/
def Statement (i : Instr) : Prop :=
  (encode i).length = i.wordCount ∧ ∃ w ws, encode i = w :: ws ∧ opOf w = i.opcode

theorem nop : Statement .nop := ⟨rfl, _, _, rfl, opOf_encodeN _⟩

theorem init (pairs : List ChannelInit) : Statement (.init pairs) :=
  ⟨by simp [encode, Instr.wordCount, Nat.add_comm], _, _, rfl, opOf_header _⟩

theorem setf (idx freq : Int) : Statement (.setf idx freq) := ⟨rfl, _, _, rfl, opOf_encodeF _ _ _⟩

theorem en (idx : Int) : Statement (.en idx) := ⟨rfl, _, _, rfl, opOf_encodeI _ _⟩

theorem dis (idx : Int) : Statement (.dis idx) := ⟨rfl, _, _, rfl, opOf_encodeI _ _⟩

theorem rsvd5 : Statement .rsvd5 := ⟨rfl, _, _, rfl, opOf_encodeN _⟩

theorem rsvd6 : Statement .rsvd6 := ⟨rfl, _, _, rfl, opOf_encodeN _⟩

theorem rsvd7 : Statement .rsvd7 := ⟨rfl, _, _, rfl, opOf_encodeN _⟩

theorem rsvd8 : Statement .rsvd8 := ⟨rfl, _, _, rfl, opOf_encodeN _⟩

theorem rsvd9 : Statement .rsvd9 := ⟨rfl, _, _, rfl, opOf_encodeN _⟩

theorem rsvdA : Statement .rsvdA := ⟨rfl, _, _, rfl, opOf_encodeN _⟩

theorem rsvdB : Statement .rsvdB := ⟨rfl, _, _, rfl, opOf_encodeN _⟩

theorem rsvdC : Statement .rsvdC := ⟨rfl, _, _, rfl, opOf_encodeN _⟩

theorem rsvdD : Statement .rsvdD := ⟨rfl, _, _, rfl, opOf_encodeN _⟩

theorem rsvdE : Statement .rsvdE := ⟨rfl, _, _, rfl, opOf_encodeN _⟩

theorem rsvdF : Statement .rsvdF := ⟨rfl, _, _, rfl, opOf_encodeN _⟩

end Sys2Proof.Laws.FirstWord
end

