-- ==== Sys2Proof/Laws/Step.lean ====
section
/-! SUPPORT. What one step can do: an equation for each input event, what a command does, and one inversion lemma for
the step as a whole, which later proofs cite instead of unfolding it. -/

namespace Sys2Proof.Machine

section Equations
variable (s : State) (es : List Event) (e : Event) (w : Word)

theorem step_nil (h : s.inputs = []) : step s = .next s := by unfold step; rw [h]

/-- A step takes the first event presented, whole. -/
@[simp] theorem step_present : step { s with inputs := e :: es } = takeEvent e { s with inputs := es } := rfl

theorem step_cons {e : Event} {es : List Event} (h : s.inputs = e :: es) :
    step s = takeEvent e { s with inputs := es } := by unfold step; rw [h]

@[simp] theorem takeEvent_reset : takeEvent .reset s = .next (resetStep s) := rfl

@[simp] theorem takeEvent_tick : takeEvent .tick s = .next (tickStep s) := rfl

/-- A command word is taken by the decoder, and the command it completes, if any, executes. -/
theorem takeEvent_cmd : takeEvent (.cmd w) s =
    match takeWord w s with
    | .wait t => .next t
    | .run i t => exec i t := rfl

theorem takeWord_idle (h : s.dec.mode = .idle) : takeWord w s = takeFirst w s := by unfold takeWord; rw [h]

theorem takeWord_payload (h : s.dec.mode = .payload) : takeWord w s = takePayload w s := by unfold takeWord; rw [h]

end Equations

/-- What a command can do (41_control_commands.md): every command answers a next state, which is one of these. -/
theorem exec_cases (i : Instr) (s : State) :
    exec i s = .next s ∨
    (∃ pairs, i = .init pairs ∧ s.running = false ∧ exec i s = .next (startBank pairs s)) ∨
    (∃ idx f k c, i = .setf idx f ∧ selected idx s = some (k, c) ∧ exec i s = .next (setFrequency k c f s)) ∨
    (∃ idx b k c, (i = .en idx ∧ b = true ∨ i = .dis idx ∧ b = false) ∧ selected idx s = some (k, c) ∧
      exec i s = .next (s.setChannel k (c.withEn b))) := by
  cases i with
  | init pairs =>
    cases h : s.running with
    | true => exact .inl (by simp [exec, execInit, h])
    | false => exact .inr (.inl ⟨pairs, rfl, rfl, by simp [exec, execInit, h]⟩)
  | setf idx f =>
    cases h : selected idx s with
    | none => exact .inl (by simp [exec, execSetf, h])
    | some kc => exact .inr (.inr (.inl ⟨idx, f, kc.1, kc.2, rfl, h, by simp [exec, execSetf, h]⟩))
  | en idx =>
    rcases setEnabled_cases idx true s with ⟨_, h⟩ | ⟨k, c, hs, h⟩
    · exact .inl (by simp [exec, execEn, h])
    · exact .inr (.inr (.inr ⟨idx, true, k, c, .inl ⟨rfl, rfl⟩, hs, by simp [exec, execEn, h]⟩))
  | dis idx =>
    rcases setEnabled_cases idx false s with ⟨_, h⟩ | ⟨k, c, hs, h⟩
    · exact .inl (by simp [exec, execDis, h])
    · exact .inr (.inr (.inr ⟨idx, false, k, c, .inr ⟨rfl, rfl⟩, hs, by simp [exec, execDis, h]⟩))
  | nop => exact .inl rfl
  | rsvd5 => exact .inl rfl
  | rsvd6 => exact .inl rfl
  | rsvd7 => exact .inl rfl
  | rsvd8 => exact .inl rfl
  | rsvd9 => exact .inl rfl
  | rsvdA => exact .inl rfl
  | rsvdB => exact .inl rfl
  | rsvdC => exact .inl rfl
  | rsvdD => exact .inl rfl
  | rsvdE => exact .inl rfl
  | rsvdF => exact .inl rfl

/-- Taking a word changes nothing but the decoder, and hands the state on otherwise as it was (20_memory.md R61). -/
theorem takeWord_cases (w : Word) (s : State) :
    (∃ d, takeWord w s = .wait { s with dec := d }) ∨
    (∃ i d, takeWord w s = .run i { s with dec := d } ∧ (s.dec.mode = .idle → d = s.dec ∧ decodeFirst w = .command i)
      ∧ (s.dec.mode = .payload → ∃ pairs, i = .init pairs)) := by
  cases h : s.dec.mode with
  | idle =>
    rw [takeWord_idle s w h]
    unfold takeFirst
    cases hd : decodeFirst w with
    | command i => exact .inr ⟨i, s.dec, rfl, fun _ => ⟨rfl, rfl⟩, fun h' => by simp at h'⟩
    | initHeader n => exact .inl ⟨_, rfl⟩
  | payload =>
    rw [takeWord_payload s w h]
    unfold takePayload
    simp only
    split
    · exact .inr ⟨_, _, rfl, fun h' => by simp at h', fun _ => ⟨_, rfl⟩⟩
    · exact .inl ⟨_, rfl⟩

/-- What one event can do: reset, tick, take a word that is not the last of its command, or execute a command. -/
theorem takeEvent_cases {e : Event} {s t : State} (h : takeEvent e s = .next t) :
    (e = .reset ∧ t = resetStep s) ∨
    (e = .tick ∧ t = tickStep s) ∨
    (∃ w, e = .cmd w ∧
      ((∃ d, takeWord w s = .wait { s with dec := d } ∧ t = { s with dec := d }) ∨
       (∃ i d, takeWord w s = .run i { s with dec := d } ∧
         (s.dec.mode = .idle → d = s.dec ∧ decodeFirst w = .command i) ∧
         (s.dec.mode = .payload → ∃ pairs, i = .init pairs) ∧
         exec i { s with dec := d } = .next t))) := by
  cases e with
  | reset => cases h; exact .inl ⟨rfl, rfl⟩
  | tick => cases h; exact .inr (.inl ⟨rfl, rfl⟩)
  | cmd w =>
    refine .inr (.inr ⟨w, rfl, ?_⟩)
    rw [takeEvent_cmd] at h
    rcases takeWord_cases w s with ⟨d, hd⟩ | ⟨i, d, hd, h1, h2⟩
    · rw [hd] at h
      cases h
      exact .inl ⟨d, hd, rfl⟩
    · rw [hd] at h
      exact .inr ⟨i, d, hd, h1, h2, h⟩

/-- What one step can do: wait when nothing is presented, else take the first event presented. -/
theorem step_cases {s t : State} (h : step s = .next t) :
    (s.inputs = [] ∧ t = s) ∨
    ∃ e es, s.inputs = e :: es ∧ takeEvent e { s with inputs := es } = .next t := by
  cases hi : s.inputs with
  | nil =>
    rw [step_nil s hi] at h
    cases h
    exact .inl ⟨rfl, rfl⟩
  | cons e es => exact .inr ⟨e, es, rfl, by rw [← step_cons s hi]; exact h⟩

/-- A command never faults and is never refused (41_control_commands.md R110). -/
theorem exec_next (i : Instr) (s : State) : ∃ t, exec i s = .next t := by
  rcases exec_cases i s with h | ⟨_, _, _, h⟩ | ⟨_, _, _, _, _, _, h⟩ | ⟨_, _, _, _, _, _, h⟩ <;> exact ⟨_, h⟩

theorem takeEvent_next (e : Event) (s : State) : ∃ t, takeEvent e s = .next t := by
  cases e with
  | reset => exact ⟨_, rfl⟩
  | tick => exact ⟨_, rfl⟩
  | cmd w =>
    rw [takeEvent_cmd]
    rcases takeWord_cases w s with ⟨d, hd⟩ | ⟨i, d, hd, -⟩ <;> rw [hd]
    · exact ⟨_, rfl⟩
    · exact exec_next i _

/-- A step never faults and is never refused (60_exceptions.md R160). -/
theorem step_next (s : State) : ∃ t, step s = .next t := by
  cases hi : s.inputs with
  | nil => exact ⟨s, step_nil s hi⟩
  | cons e es => rw [step_cons s hi]; exact takeEvent_next e _

/-- What every command leaves alone: the parameters, the decoder, the events still presented. -/
theorem exec_keeps {i : Instr} {s t : State} (h : exec i s = .next t) :
    t.params = s.params ∧ t.dec = s.dec ∧ t.inputs = s.inputs ∧ t.ch.length = s.ch.length ∨
    t.params = s.params ∧ t.dec = s.dec ∧ t.inputs = s.inputs ∧ ∃ pairs, i = .init pairs ∧ s.running = false ∧
      t = startBank pairs s := by
  rcases exec_cases i s with h' | ⟨p, hi, hr, h'⟩ | ⟨_, f, k, c, _, _, h'⟩ | ⟨_, b, k, c, _, _, h'⟩ <;> rw [h] at h' <;>
    cases h'
  · exact .inl ⟨rfl, rfl, rfl, rfl⟩
  · exact .inr ⟨rfl, rfl, rfl, p, hi, hr, rfl⟩
  · rcases setFrequency_cases k c f s with ⟨_, h⟩ | ⟨_, h⟩ <;> rw [h] <;> simp
  · simp

/-- A command adds to the output list at its end only, and keeps the parameters. -/
theorem exec_outputs {i : Instr} {s t : State} (h : exec i s = .next t) :
    (∃ os, t.outputs = s.outputs ++ os) ∧ t.params = s.params := by
  rcases exec_cases i s with h' | ⟨p, _, _, h'⟩ | ⟨_, f, k, c, _, _, h'⟩ | ⟨_, b, k, c, _, _, h'⟩ <;> rw [h] at h' <;>
    cases h'
  · exact ⟨⟨[], by simp⟩, rfl⟩
  · exact ⟨⟨_, rfl⟩, rfl⟩
  · rcases setFrequency_cases k c f s with ⟨_, h⟩ | ⟨_, h⟩ <;> rw [h]
    · exact ⟨⟨[], by simp⟩, rfl⟩
    · exact ⟨⟨_, rfl⟩, rfl⟩
  · exact ⟨⟨[], by simp⟩, rfl⟩

/-- An event adds to the output list at its end only, and keeps the parameters (00_scope.md R14). -/
theorem takeEvent_outputs {e : Event} {s t : State} (h : takeEvent e s = .next t) :
    (∃ os, t.outputs = s.outputs ++ os) ∧ t.params = s.params := by
  rcases takeEvent_cases h with ⟨rfl, rfl⟩ | ⟨rfl, rfl⟩ | ⟨w, rfl, ⟨d, _, rfl⟩ | ⟨i, d, _, _, _, h⟩⟩
  · exact ⟨⟨[], by simp⟩, rfl⟩
  · exact ⟨⟨_, rfl⟩, rfl⟩
  · exact ⟨⟨[], by simp⟩, rfl⟩
  · exact exec_outputs (s := { s with dec := d }) h

end Sys2Proof.Machine
end

