-- ==== Sys2Proof/Laws/Runs.lean ====
section
/-! SUPPORT. Runs over given input events (20_memory.md R64): every run goes on, what is presented later does not matter
to an event, and a run over events is the fold of `takeEvent` over them. -/

namespace Sys2Proof.Machine

/-- The state with the presented events replaced. -/
def State.withInputs (es : List Event) (s : State) : State := { s with inputs := es }

section Present
variable (es : List Event) (s : State)
@[simp] theorem State.present_params : (s.present es).params = s.params := rfl
@[simp] theorem State.present_running : (s.present es).running = s.running := rfl
@[simp] theorem State.present_count : (s.present es).count = s.count := rfl
@[simp] theorem State.present_ch : (s.present es).ch = s.ch := rfl
@[simp] theorem State.present_dec : (s.present es).dec = s.dec := rfl
@[simp] theorem State.present_inputs : (s.present es).inputs = es ++ s.inputs := rfl
@[simp] theorem State.present_outputs : (s.present es).outputs = s.outputs := rfl
end Present

@[simp] theorem andThen_next (t : State) (k : State → Host.Outcome State Fault Refusal) :
    andThen (.next t) k = k t := rfl

theorem andThen_assoc (o : Host.Outcome State Fault Refusal) (j k : State → Host.Outcome State Fault Refusal) :
    andThen (andThen o j) k = andThen o (fun t => andThen (j t) k) := by cases o <;> rfl

theorem steps_succ {s t : State} (h : step s = .next t) (n : Nat) : steps (n + 1) s = steps n t := by
  simp [steps, h]

theorem steps_next (n : Nat) (s : State) : ∃ t, steps n s = .next t := by
  induction n generalizing s with
  | zero => exact ⟨s, rfl⟩
  | succ n ih =>
    obtain ⟨t, h⟩ := step_next s
    rw [steps_succ h]
    exact ih t

theorem steps_add (n m : Nat) (s : State) : steps (n + m) s = andThen (steps n s) (steps m) := by
  induction n generalizing s with
  | zero => simp [steps]
  | succ n ih =>
    obtain ⟨u, hu⟩ := step_next s
    rw [Nat.succ_add, steps_succ hu, steps_succ hu, ih]

theorem host_run_succ (M : Host.Core) {s t : M.State} (h : M.step s = .next t) (n : Nat) :
    M.run (n + 1) s = M.run n t := by
  simp [Host.Core.run, h]

/-- `steps` is the host's own run of the machine. -/
theorem steps_eq_host_run (n : Nat) (s : State) : Host.Core.run Sys2Proof.core n s = steps n s := by
  induction n generalizing s with
  | zero => rfl
  | succ n ih =>
    obtain ⟨t, h⟩ := step_next s
    rw [steps_succ h, ← ih]
    exact host_run_succ Sys2Proof.core h n

/-- What a command does does not depend on what is presented (20_memory.md R60). -/
theorem exec_withInputs (i : Instr) (es : List Event) (s : State) :
    exec i (s.withInputs es) = andThen (exec i s) (fun t => .next (t.withInputs es)) := by
  cases i with
  | init pairs =>
    cases h : s.running with
    | true =>
      have h' : (s.withInputs es).running = true := h
      simp [exec, execInit, h, h']
    | false =>
      have h' : (s.withInputs es).running = false := h
      simp only [exec, execInit, h, h', Bool.false_eq_true, if_false]
      rfl
  | setf idx f =>
    have hs : selected idx (s.withInputs es) = selected idx s := rfl
    cases h : selected idx s with
    | none => simp [exec, execSetf, h, hs]
    | some kc =>
      simp only [exec, execSetf, h, hs, andThen_next, setFrequency]
      have hp : (s.withInputs es).params = s.params := rfl
      rw [hp]
      split <;> rfl
  | en idx =>
    have hs : selected idx (s.withInputs es) = selected idx s := rfl
    simp only [exec, execEn, setEnabled, hs, andThen_next]
    cases h : selected idx s <;> rfl
  | dis idx =>
    have hs : selected idx (s.withInputs es) = selected idx s := rfl
    simp only [exec, execDis, setEnabled, hs, andThen_next]
    cases h : selected idx s <;> rfl
  | nop => rfl
  | rsvd5 => rfl
  | rsvd6 => rfl
  | rsvd7 => rfl
  | rsvd8 => rfl
  | rsvd9 => rfl
  | rsvdA => rfl
  | rsvdB => rfl
  | rsvdC => rfl
  | rsvdD => rfl
  | rsvdE => rfl
  | rsvdF => rfl

/-- What an event does does not depend on what is presented after it (20_memory.md R60). -/
theorem takeEvent_withInputs (e : Event) (es : List Event) (s : State) :
    takeEvent e (s.withInputs es) = andThen (takeEvent e s) (fun t => .next (t.withInputs es)) := by
  cases e with
  | reset => rfl
  | tick => rfl
  | cmd w =>
    rw [takeEvent_cmd, takeEvent_cmd]
    have key : takeWord w (s.withInputs es) =
        match takeWord w s with
        | .wait t => .wait (t.withInputs es)
        | .run i t => .run i (t.withInputs es) := by
      cases h : s.dec.mode with
      | idle =>
        rw [takeWord_idle s w h, takeWord_idle (s.withInputs es) w h]
        unfold takeFirst
        cases decodeFirst w <;> rfl
      | payload =>
        rw [takeWord_payload s w h, takeWord_payload (s.withInputs es) w h]
        by_cases hl : s.dec.seen + 1 = s.dec.total <;> simp only [takePayload, State.withInputs, hl, if_true, if_false]
    rw [key]
    rcases takeWord w s with ⟨i, t⟩ | t
    · exact exec_withInputs i es t
    · rfl

/-- Taking an event leaves what is presented as it was. -/
theorem takeEvent_inputs {e : Event} {s t : State} (h : takeEvent e s = .next t) : t.inputs = s.inputs := by
  have h' := takeEvent_withInputs e s.inputs s
  rw [show s.withInputs s.inputs = s from rfl, h] at h'
  rw [Host.Outcome.next.inj h']
  rfl

@[simp] theorem runEvents_nil (s : State) : runEvents [] s = .next s := rfl

theorem runEvents_next (es : List Event) (s : State) : ∃ t, runEvents es s = .next t := steps_next _ _

/-- A run over events is the fold of the event steps over them (20_memory.md R64). -/
theorem runEvents_cons (e : Event) (es : List Event) (s : State) :
    runEvents (e :: es) s = andThen (takeEvent e s) (runEvents es) := by
  obtain ⟨t, ht⟩ := takeEvent_next e s
  have h1 : step (s.present (e :: es)) = .next (t.withInputs (es ++ s.inputs)) := by
    show takeEvent e (s.withInputs (es ++ s.inputs)) = _
    rw [takeEvent_withInputs, ht]
    rfl
  rw [ht, andThen_next]
  show steps (es.length + 1) _ = _
  rw [steps_succ h1]
  show _ = steps es.length (t.withInputs (es ++ t.inputs))
  rw [takeEvent_inputs ht]

theorem runEvents_append (es fs : List Event) (s : State) :
    runEvents (es ++ fs) s = andThen (runEvents es s) (runEvents fs) := by
  induction es generalizing s with
  | nil => rfl
  | cons e es ih =>
    rw [List.cons_append, runEvents_cons, runEvents_cons, andThen_assoc]
    congr 1
    exact funext ih

/-- A run over k ticks is the tick step k times. -/
theorem runEvents_ticks (k : Nat) (s : State) :
    runEvents (List.replicate k .tick) s = .next (tickStep^[k] s) := by
  induction k generalizing s with
  | zero => rfl
  | succ k ih => rw [List.replicate_succ, runEvents_cons, takeEvent_tick, andThen_next, ih]; rfl

end Sys2Proof.Machine
end

