-- ==== Sys2Proof/Laws/Ticks.lean ====
section
/-! SUPPORT. Stretches of ticks (42_tick_step.md section 3): one channel over n ticks, and what the channel that alone
holds a pin writes on it. -/

namespace Sys2Proof.Machine

/-- Counting on past a multiple of T + 1. -/
theorem succ_div_mod (a t : Nat) :
    (a % (t + 1) = t → (a + 1) / (t + 1) = a / (t + 1) + 1 ∧ (a + 1) % (t + 1) = 0) ∧
    (a % (t + 1) ≠ t → (a + 1) / (t + 1) = a / (t + 1) ∧ (a + 1) % (t + 1) = a % (t + 1) + 1) := by
  have h := Nat.div_add_mod a (t + 1)
  have hlt : a % (t + 1) < t + 1 := Nat.mod_lt a (Nat.succ_pos t)
  constructor
  · intro he
    have : a + 1 = (t + 1) * (a / (t + 1) + 1) := by rw [Nat.mul_succ]; omega
    rw [this]
    exact ⟨Nat.mul_div_cancel_left _ (Nat.succ_pos t), Nat.mul_mod_right _ _⟩
  · intro hne
    have hs : a + 1 = (t + 1) * (a / (t + 1)) + (a % (t + 1) + 1) := by omega
    exact (Nat.div_mod_unique (Nat.succ_pos t)).2 ⟨(by omega : a % (t + 1) + 1 + (t + 1) * (a / (t + 1)) = a + 1), (by omega : a % (t + 1) + 1 < t + 1)⟩

section OneChannel
variable (c : Channel)

theorem Channel.edgeDue_iff : c.edgeDue = true ↔ 0 < c.tph.toNat ∧ c.tph.toNat ≤ c.cnt.toNat := by
  simp [Channel.edgeDue]

theorem Channel.ticked_of_edge (h : c.edgeDue = true) :
    c.ticked = { c with cnt := 0, lvl := c.toggledLevel } := by simp [Channel.ticked, h]

theorem Channel.ticked_of_no_edge (h : c.edgeDue = false) : c.ticked = { c with cnt := c.cnt + 1 } := by
  simp [Channel.ticked, h]

@[simp] theorem Channel.iterate_pin (n : Nat) : (Channel.ticked^[n] c).pin = c.pin := by
  induction n with
  | zero => rfl
  | succ n ih => rw [Function.iterate_succ_apply', Channel.ticked_pin, ih]

@[simp] theorem Channel.iterate_tph (n : Nat) : (Channel.ticked^[n] c).tph = c.tph := by
  induction n with
  | zero => rfl
  | succ n ih => rw [Function.iterate_succ_apply', Channel.ticked_tph, ih]

@[simp] theorem Channel.iterate_en (n : Nat) : (Channel.ticked^[n] c).en = c.en := by
  induction n with
  | zero => rfl
  | succ n ih => rw [Function.iterate_succ_apply', Channel.ticked_en, ih]

/-- The counter over n ticks runs modulo T + 1 (42_tick_step.md R149). -/
theorem Channel.iterate_cnt (hT : 0 < c.tph.toNat) (hc : c.cnt.toNat ≤ c.tph.toNat) (n : Nat) :
    (Channel.ticked^[n] c).cnt.toNat = (n + c.cnt.toNat) % (c.tph.toNat + 1) := by
  induction n with
  | zero => simp [Nat.mod_eq_of_lt (Nat.lt_succ_of_le hc)]
  | succ n ih =>
    rw [Function.iterate_succ_apply']
    have hmod := succ_div_mod (n + c.cnt.toNat) c.tph.toNat
    have hlt : (n + c.cnt.toNat) % (c.tph.toNat + 1) < c.tph.toNat + 1 := Nat.mod_lt _ (Nat.succ_pos _)
    have hb := c.tph.isLt
    rw [show n + 1 + c.cnt.toNat = n + c.cnt.toNat + 1 by omega]
    by_cases he : (n + c.cnt.toNat) % (c.tph.toNat + 1) = c.tph.toNat
    · rw [(hmod.1 he).2, Channel.ticked_of_edge _ ((Channel.edgeDue_iff _).2 ⟨by simpa using hT, by rw [ih, Channel.iterate_tph]; omega⟩)]
      rfl
    · have hne : (Channel.ticked^[n] c).edgeDue = false := by
        rw [Bool.eq_false_iff, Ne, Channel.edgeDue_iff, ih, Channel.iterate_tph]; omega
      rw [(hmod.2 he).2, Channel.ticked_of_no_edge _ hne]
      simp only [BitVec.toNat_add, ih]
      simp; omega

/-- The tick after n ticks is an edge event exactly when the count there has reached T (R146). -/
theorem Channel.iterate_edgeDue (hT : 0 < c.tph.toNat) (hc : c.cnt.toNat ≤ c.tph.toNat) (n : Nat) :
    (Channel.ticked^[n] c).edgeDue = true ↔ (n + c.cnt.toNat) % (c.tph.toNat + 1) = c.tph.toNat := by
  have hlt : (n + c.cnt.toNat) % (c.tph.toNat + 1) < c.tph.toNat + 1 := Nat.mod_lt _ (Nat.succ_pos _)
  rw [Channel.edgeDue_iff, Channel.iterate_cnt c hT hc, Channel.iterate_tph]
  omega

/-- The level over n ticks: flipped once for each edge event if enabled, LOW from the first one on if not
(R147, R150). -/
theorem Channel.iterate_lvl (hT : 0 < c.tph.toNat) (hc : c.cnt.toNat ≤ c.tph.toNat) (n : Nat) :
    (Channel.ticked^[n] c).lvl =
      if c.en = true then Level.flips (edgeCount c.tph.toNat c.cnt.toNat n) c.lvl
      else if edgeCount c.tph.toNat c.cnt.toNat n = 0 then c.lvl else .low := by
  induction n with
  | zero =>
    have : edgeCount c.tph.toNat c.cnt.toNat 0 = 0 := by
      simp only [edgeCount, Nat.zero_add]; exact Nat.div_eq_of_lt (by omega)
    simp [this, Level.flips]
  | succ n ih =>
    have hmod := succ_div_mod (n + c.cnt.toNat) c.tph.toNat
    have he' : edgeCount c.tph.toNat c.cnt.toNat (n + 1) = (n + c.cnt.toNat + 1) / (c.tph.toNat + 1) := by
      simp only [edgeCount]; congr 1; omega
    rw [Function.iterate_succ_apply', he']
    by_cases h : (Channel.ticked^[n] c).edgeDue = true
    · rw [(hmod.1 ((c.iterate_edgeDue hT hc n).1 h)).1, Channel.ticked_of_edge _ h]
      simp only [Channel.toggledLevel, Channel.iterate_en, ih]
      cases c.en <;> simp [Level.flips, edgeCount]
    · have h1 := mt (c.iterate_edgeDue hT hc n).2 h
      rw [(hmod.2 h1).1, Channel.ticked_of_no_edge _ (by simpa using h), ih]
      rfl

/-- A channel with tick count 0 over n ticks: only its counter moves, modulo 2^20 (R152). -/
theorem Channel.iterate_silent (h : c.tph = 0) (n : Nat) :
    Channel.ticked^[n] c = { c with cnt := c.cnt + BitVec.ofNat 20 n } := by
  induction n with
  | zero => simp
  | succ n ih =>
    have hne : (Channel.ticked^[n] c).edgeDue = false := by
      rw [Bool.eq_false_iff, Ne, Channel.edgeDue_iff]; simp [h]
    rw [Function.iterate_succ_apply', Channel.ticked_of_no_edge _ hne, ih]
    simp [BitVec.ofNat_add, BitVec.add_assoc]

end OneChannel

section Iterate
variable (n : Nat) (s : State)

@[simp] theorem tickStep_iterate_params : (tickStep^[n] s).params = s.params := by
  induction n with
  | zero => rfl
  | succ n ih => rw [Function.iterate_succ_apply', tickStep_params, ih]

@[simp] theorem tickStep_iterate_running : (tickStep^[n] s).running = s.running := by
  induction n with
  | zero => rfl
  | succ n ih => rw [Function.iterate_succ_apply', tickStep_running, ih]

@[simp] theorem tickStep_iterate_count : (tickStep^[n] s).count = s.count := by
  induction n with
  | zero => rfl
  | succ n ih => rw [Function.iterate_succ_apply', tickStep_count, ih]

@[simp] theorem tickStep_iterate_dec : (tickStep^[n] s).dec = s.dec := by
  induction n with
  | zero => rfl
  | succ n ih => rw [Function.iterate_succ_apply', tickStep_dec, ih]

@[simp] theorem tickStep_iterate_inputs : (tickStep^[n] s).inputs = s.inputs := by
  induction n with
  | zero => rfl
  | succ n ih => rw [Function.iterate_succ_apply', tickStep_inputs, ih]

/-- Each channel in use takes n per-channel steps; no other changes (R140, R142). -/
theorem tickStep_iterate_getElem? (i : Nat) :
    (tickStep^[n] s).ch[i]? = if i < s.count then (s.ch[i]?).map Channel.ticked^[n] else s.ch[i]? := by
  induction n with
  | zero => simp
  | succ n ih =>
    rw [Function.iterate_succ_apply', tickStep_ch, tickBank_getElem?, tickStep_iterate_count, ih]
    split
    · rw [Option.map_map, Function.iterate_succ', Function.comp_def]
    · rfl

end Iterate

section Writes

@[simp] theorem writesOn_nil (p : Pin) : writesOn p [] = [] := rfl

theorem writesOn_append (p : Pin) (os qs : List Output) : writesOn p (os ++ qs) = writesOn p os ++ writesOn p qs := by
  simp [writesOn]

theorem Channel.writesOn_tickOutputs_self (c : Channel) :
    writesOn c.pin c.tickOutputs = if c.edgeDue then [c.toggledLevel] else [] := by
  unfold Channel.tickOutputs
  split <;> simp [writesOn, Output.levelOn]

theorem Channel.writesOn_tickOutputs_other {c : Channel} {p : Pin} (h : c.pin ≠ p) : writesOn p c.tickOutputs = [] := by
  unfold Channel.tickOutputs
  split <;> simp [writesOn, Output.levelOn, h]

/-- Channels on other pins write nothing on p. -/
theorem writesOn_tickBankOutputs_none {p : Pin} (n : Nat) (cs : List Channel)
    (h : ∀ (k : Nat) (d : Channel), k < n → cs[k]? = some d → d.pin ≠ p) : writesOn p (tickBankOutputs n cs) = [] := by
  induction n generalizing cs with
  | zero => rfl
  | succ n ih =>
    cases cs with
    | nil => rfl
    | cons c cs =>
      rw [tickBankOutputs, writesOn_append, Channel.writesOn_tickOutputs_other (h 0 c (by omega) rfl),
        ih cs (fun k d hk hd => h (k + 1) d (by omega) (by simpa using hd))]
      rfl

/-- The writes on the pin that channel i alone holds are channel i's (R142, R144). -/
theorem writesOn_tickBankOutputs {i : Nat} {c : Channel} (n : Nat) (cs : List Channel) (hi : i < n)
    (hc : cs[i]? = some c) (h : ∀ (k : Nat) (d : Channel), k < n → cs[k]? = some d → k ≠ i → d.pin ≠ c.pin) :
    writesOn c.pin (tickBankOutputs n cs) = if c.edgeDue then [c.toggledLevel] else [] := by
  induction n generalizing cs i with
  | zero => omega
  | succ n ih =>
    cases cs with
    | nil => simp at hc
    | cons d cs =>
      rw [tickBankOutputs, writesOn_append]
      cases i with
      | zero =>
        simp at hc
        subst hc
        rw [Channel.writesOn_tickOutputs_self, writesOn_tickBankOutputs_none n cs
          (fun k e hk he => h (k + 1) e (by omega) (by simpa using he) (by omega)), List.append_nil]
      | succ i =>
        rw [Channel.writesOn_tickOutputs_other (h 0 d (Nat.succ_pos n) rfl (by omega)),
          ih (i := i) cs (by omega) (by simpa using hc) (fun k e hk he hne =>
            h (k + 1) e (by omega) (by simpa using he) (by omega)), List.nil_append]

/-- A channel that alone holds its pin still does after ticks. -/
theorem State.ownsPin_iterate {s : State} {i : Nat} {c : Channel} (h : s.ownsPin i c) (n : Nat) :
    (tickStep^[n] s).ownsPin i (Channel.ticked^[n] c) := by
  obtain ⟨h1, h2, h3⟩ := h
  refine ⟨by simpa using h1, by rw [tickStep_iterate_getElem?, if_pos h1, h2]; rfl, ?_⟩
  intro k d hk hd hne
  rw [tickStep_iterate_count] at hk
  rw [tickStep_iterate_getElem?, if_pos hk] at hd
  cases he : s.ch[k]? with
  | none => rw [he] at hd; simp at hd
  | some e =>
    rw [he] at hd
    simp at hd
    subst hd
    simpa using h3 k e hk he hne

/-- The outputs of n ticks come after the earlier ones; on the pin channel i alone holds, they are one write for each
edge event (R147). -/
theorem tickStep_iterate_outputs {s : State} {i : Nat} {c : Channel} (h : s.ownsPin i c) (n : Nat) :
    ∃ os, (tickStep^[n] s).outputs = s.outputs ++ os ∧
      writesOn c.pin os = (List.range n).flatMap (fun k =>
        if (Channel.ticked^[k] c).edgeDue then [(Channel.ticked^[k] c).toggledLevel] else []) := by
  induction n with
  | zero => exact ⟨[], by simp, rfl⟩
  | succ n ih =>
    obtain ⟨os, h1, h2⟩ := ih
    obtain ⟨hi, hc, ho⟩ := State.ownsPin_iterate h n
    refine ⟨os ++ tickBankOutputs (tickStep^[n] s).count (tickStep^[n] s).ch, ?_, ?_⟩
    · rw [Function.iterate_succ_apply', tickStep_outputs, h1, List.append_assoc]
    · have := writesOn_tickBankOutputs _ _ hi hc ho
      rw [Channel.iterate_pin] at this
      rw [writesOn_append, h2, this, List.range_succ, List.flatMap_append]
      simp

/-- One tick more is one edge event more exactly when the count has reached T (R147). -/
theorem edgeCount_succ (t c0 n : Nat) :
    edgeCount t c0 (n + 1) = edgeCount t c0 n + if (n + c0) % (t + 1) = t then 1 else 0 := by
  have h := succ_div_mod (n + c0) t
  simp only [edgeCount, show n + 1 + c0 = n + c0 + 1 by omega]
  split
  · rename_i he; rw [(h.1 he).1]
  · rename_i he; rw [(h.2 he).1]; rfl

/-- A stretch of n ticks has `edgeCount` edge events (R147). -/
theorem Channel.edgeWrites_length (c : Channel) (hT : 0 < c.tph.toNat) (hc : c.cnt.toNat ≤ c.tph.toNat) (n : Nat) :
    ((List.range n).flatMap (fun k =>
      if (Channel.ticked^[k] c).edgeDue then [(Channel.ticked^[k] c).toggledLevel] else [])).length =
    edgeCount c.tph.toNat c.cnt.toNat n := by
  induction n with
  | zero => simp [edgeCount]; exact (Nat.div_eq_of_lt (by omega)).symm
  | succ n ih =>
    rw [List.range_succ, List.flatMap_append, List.length_append, ih, edgeCount_succ]
    congr 1
    by_cases h : (Channel.ticked^[n] c).edgeDue = true
    · rw [if_pos ((c.iterate_edgeDue hT hc n).1 h)]; simp [h]
    · rw [if_neg (mt (c.iterate_edgeDue hT hc n).2 h)]; simp [h]

/-- A channel that alone holds its pin still does when its record is written with the same pin. -/
theorem State.ownsPin_setChannel {s : State} {i : Nat} {c d : Channel} (h : s.ownsPin i c) (hd : d.pin = c.pin) :
    (s.setChannel i d).ownsPin i d := by
  obtain ⟨h1, h2, h3⟩ := h
  refine ⟨h1, State.setChannel_self h2, fun k e hk he hne => ?_⟩
  rw [State.setChannel_other hne] at he
  rw [hd]
  exact h3 k e hk he hne

end Writes

/-- Whether tick number k + 1 is an edge event, by the channel alone (R141, R142). -/
theorem State.edgeAt_eq {s : State} {i : Nat} {c : Channel} (hi : i < s.count) (hc : s.ch[i]? = some c) (k : Nat) :
    s.edgeAt i k = (Channel.ticked^[k] c).edgeDue := by
  unfold State.edgeAt
  rw [runEvents_ticks]
  simp [tickStep_iterate_getElem?, hi, hc]

/-- A channel in use with an edge event due writes its pin in this tick (R143, R144). -/
theorem pinWrite_mem_tickBankOutputs {s : State} {i : Nat} {c : Channel} (hi : i < s.count) (hc : s.ch[i]? = some c)
    (h : c.edgeDue = true) : .pinWrite c.pin c.toggledLevel ∈ tickBankOutputs s.count s.ch := by
  rw [tickBankOutputs_eq, List.mem_flatMap]
  refine ⟨c, List.mem_iff_getElem?.2 ⟨i, ?_⟩, Channel.mem_tickOutputs.2 ⟨h, rfl⟩⟩
  rw [List.getElem?_take, if_pos hi, hc]

end Sys2Proof.Machine
end

