-- ==== Sys2Proof/Laws/Staging.lean ====
section
/-! SUPPORT. INIT's payload as the decoder stages it (10_state.md R34, 30_encoding.md R77, R78): what one payload word does
to the words received so far. -/

namespace Sys2Proof.Machine

/-- The decoder is receiving an INIT: the words `got` have come, the words `left` are to come, and the staging buffer
holds those of `got` that it has room for. -/
def Decoder.Received (cap : Nat) (d : Decoder) (got left : List Word) : Prop :=
  d.mode = .payload ∧ d.stage.length = cap ∧ d.seen.toNat = got.length ∧ d.total.toNat = got.length + left.length ∧
  ∀ j, j < cap → j < got.length → d.stage[j]? = (got[j]?).map (fun w => { pin := pinOf w, freq := freqBitsOf w })

/-- INIT uses at most CAP pairs, so handing over the first CAP is handing over all (41_control_commands.md R112). -/
theorem exec_init_take (pairs : List ChannelInit) (s : State) :
    exec (.init (pairs.take s.params.cap)) s = exec (.init pairs) s := by
  simp only [exec, execInit, startBank, List.length_take, List.take_take, Nat.min_self]
  rw [Nat.min_comm s.params.cap, Nat.min_assoc, Nat.min_self]

theorem Decoder.staged_length (cap : Nat) (w : Word) (d : Decoder) : (d.staged cap w).length = d.stage.length := by
  unfold Decoder.staged
  split <;> simp

/-- The staging buffer holds one word more, if it has room for it (R77). -/
theorem Decoder.staged_getElem? {cap : Nat} {d : Decoder} {got left : List Word} (h : d.Received cap got left) (w : Word)
    {j : Nat} (hj : j < cap) (hj' : j < got.length + 1) :
    (d.staged cap w)[j]? = ((got ++ [w])[j]?).map (fun w => { pin := pinOf w, freq := freqBitsOf w }) := by
  obtain ⟨-, hl, hs, -, hg⟩ := h
  have old : j < got.length → d.stage[j]? = ((got ++ [w])[j]?).map (fun w => { pin := pinOf w, freq := freqBitsOf w }) := by
    intro hlt
    rw [List.getElem?_append_left hlt]
    exact hg j hj hlt
  unfold Decoder.staged
  split
  · rw [List.getElem?_set]
    split
    · rename_i he
      obtain rfl : j = got.length := by omega
      simp [hs, hl, hj]
    · exact old (by omega)
  · exact old (by omega)

/-- One payload word: the last one executes INIT with the pairs of all the words; any other is staged and nothing else
happens (20_memory.md R61, 30_encoding.md R78). -/
theorem takeEvent_payload {s : State} {got left : List Word} {w : Word}
    (h : s.dec.Received s.params.cap got (w :: left)) :
    (left = [] ∧ ∃ d : Decoder, d.mode = .idle ∧ d.stage.length = s.params.cap ∧
      takeEvent (.cmd w) s = exec (.init ((got ++ [w]).map decodePayload)) { s with dec := d }) ∨
    (left ≠ [] ∧ ∃ d : Decoder, d.Received s.params.cap (got ++ [w]) left ∧
      takeEvent (.cmd w) s = .next { s with dec := d }) := by
  have hst := fun j => Decoder.staged_getElem? h w (j := j)
  obtain ⟨hm, hl, hs, ht, -⟩ := h
  simp only [List.length_cons] at ht
  have hb := s.dec.total.isLt
  have hs1 : (s.dec.seen + 1).toNat = got.length + 1 := by
    rw [BitVec.toNat_add, hs]
    exact Nat.mod_eq_of_lt (by simp; omega)
  have hlast : s.dec.seen + 1 = s.dec.total ↔ left = [] := by
    rw [← BitVec.toNat_inj, hs1, ht, ← List.length_eq_zero_iff]
    omega
  have hlen : (s.dec.staged s.params.cap w).length = s.params.cap := by rw [Decoder.staged_length, hl]
  rw [takeEvent_cmd, takeWord_payload _ _ hm]
  by_cases hn : left = []
  · refine .inl ⟨hn, s.dec.afterPayload s.params.cap w, ?_, hlen, ?_⟩
    · simp only [Decoder.afterPayload, hlast.2 hn, if_true]
    · have key : (s.dec.afterPayload s.params.cap w).handed s.params.cap =
          ((got ++ [w]).map decodePayload).take s.params.cap := by
        apply List.ext_getElem?
        intro j
        simp only [Decoder.handed, Decoder.afterPayload, List.getElem?_map, List.getElem?_take]
        rw [hn] at ht
        simp only [List.length_nil] at ht
        by_cases hj : j < s.params.cap
        · by_cases hj' : j < got.length + 1
          · rw [if_pos (by omega), if_pos hj, hst j hj hj']
            cases (got ++ [w])[j]? <;> rfl
          · rw [if_neg (by omega), if_pos hj, List.getElem?_eq_none (by simp; omega)]
            rfl
        · rw [if_neg (by omega), if_neg hj]
          rfl
      unfold takePayload
      simp only [hlast.2 hn, if_true, key]
      exact exec_init_take ((got ++ [w]).map decodePayload) { s with dec := s.dec.afterPayload s.params.cap w }
  · have h1 : ¬ s.dec.seen + 1 = s.dec.total := mt hlast.1 hn
    refine .inr ⟨hn, s.dec.afterPayload s.params.cap w, ⟨?_, hlen, ?_, ?_, ?_⟩, ?_⟩
    · simp only [Decoder.afterPayload, h1, if_false]
    · simpa [Decoder.afterPayload] using hs1
    · simp only [Decoder.afterPayload, ht, List.length_append, List.length_cons, List.length_nil]
      omega
    · intro j hj hj'
      exact hst j hj (by simpa using hj')
    · unfold takePayload
      simp only [h1, if_false]

/-- Ticks do not look at the decoder (42_tick_step.md R140). -/
theorem tickStep_iterate_withDec (k : Nat) (s : State) (d : Decoder) :
    tickStep^[k] { s with dec := d } = { tickStep^[k] s with dec := d } := by
  induction k generalizing s with
  | zero => rfl
  | succ k ih => simp only [Function.iterate_succ_apply]; exact ih (tickStep s)

end Sys2Proof.Machine
end

