-- ==== Sys2Proof/Tests/Slice0.lean ====
section
/-! SUPPORT. Small tests, each expected value from 95_test_vectors.md or worked out by hand from a rule, and one witness
for the hypotheses of each statement. -/

namespace Sys2Proof.Tests

open Sys2Proof Sys2Proof.Machine

/-! ## Helpers -/

/-- A channel, written as the spec's vectors write it: (pin, tph, cnt, en, lvl). -/
def chan (pin : Pin) (tph cnt : Ticks) (en : Bool) (lvl : Level) : Channel :=
  { pin := pin, tph := tph, cnt := cnt, en := en, lvl := lvl }

/-- A running block with the default parameters and these channels in use. -/
def bank (cs : List Channel) : State :=
  { State.reset with
    running := true
    count := cs.length
    ch := cs ++ List.replicate (7 - cs.length) Channel.atReset }

/-- The start state of V4: (3, 19, 7, 1, 1) between two silent channels. -/
def trio : State := bank [chan 2 0 0 false .low, chan 3 19 7 true .high, chan 4 0 0 false .low]

/-- Two channels on different pins, one at its edge, one disabled-high. -/
def duo : State := bank [chan 5 8 8 true .low, chan 6 4 1 false .high]

/-- The next state of an outcome. -/
def nextOf : Host.Outcome State Fault Refusal → Option State
  | .next t => some t
  | .fault _ => none
  | .refused _ => none

/-- Channel i of a next state, and what was output since `s`. -/
def seen (s : State) (i : Nat) (o : Host.Outcome State Fault Refusal) : Option (Option Channel × List Output) :=
  (nextOf o).map (fun t => (t.ch[i]?, t.outputs.drop s.outputs.length))

/-! ## Well-formedness: one ill-formed term for each check -/

theorem test_wf_init_count :
    (Instr.init (List.replicate 255 { pin := 0, freq := 0 })).wellFormed = true ∧
    (Instr.init (List.replicate 256 { pin := 0, freq := 0 })).wellFormed = false := by decide +kernel

theorem test_wf_init_freq :
    (Instr.init [{ pin := 0, freq := 524287 }, { pin := 0, freq := -524288 }]).wellFormed = true ∧
    (Instr.init [{ pin := 0, freq := 0 }, { pin := 0, freq := 524288 }]).wellFormed = false ∧
    (Instr.init [{ pin := 0, freq := -524289 }]).wellFormed = false := by decide

theorem test_wf_setf_idx : (Instr.setf (-129) 0).wellFormed = false ∧ (Instr.setf 128 0).wellFormed = false := by decide

theorem test_wf_setf_freq :
    (Instr.setf 0 524288).wellFormed = false ∧ (Instr.setf 0 (-524289)).wellFormed = false := by decide

theorem test_wf_en_idx : (Instr.en (-129)).wellFormed = false ∧ (Instr.en 128).wellFormed = false := by decide

theorem test_wf_dis_idx : (Instr.dis (-129)).wellFormed = false ∧ (Instr.dis 128).wellFormed = false := by decide

/-! ## Decoding: a word of every constructor, written out from the formats of 30_encoding.md R71 -/

theorem test_decode_nop : decodeFirst 0b00000000000000000000000000000000#32 = .command .nop := by decide
theorem test_decode_init_empty : decodeFirst 0b00010000000000000000000000000000#32 = .command (.init []) := by decide
/-- S3's four words. -/
theorem test_decode_init :
    decode [0b00010000000000000000000000000011#32, 0b00000000001000000000000000000000#32,
      0b00000000001100000000000110111000#32, 0b00000000010000000000000000000000#32, 0x30000000#32] =
    .ok (.init [{ pin := 2, freq := 0 }, { pin := 3, freq := 440 }, { pin := 4, freq := 0 }], [0x30000000#32]) := by
  decide
theorem test_decode_setf : decodeFirst 0b00100000000111111111111111111011#32 = .command (.setf 1 (-5)) := by decide
theorem test_decode_en : decodeFirst 0b00111111111100000000000000000001#32 = .command (.en (-1)) := by decide
theorem test_decode_dis : decodeFirst 0b01000000000100000000000000000000#32 = .command (.dis 1) := by decide
theorem test_decode_rsvd5 : decodeFirst 0b01010000000000000000000000000000#32 = .command .rsvd5 := by decide
theorem test_decode_rsvd6 : decodeFirst 0b01100000000000000000000000000001#32 = .command .rsvd6 := by decide
theorem test_decode_rsvd7 : decodeFirst 0b01110000000000000000000000000000#32 = .command .rsvd7 := by decide
theorem test_decode_rsvd8 : decodeFirst 0b10000000000000000000000000000000#32 = .command .rsvd8 := by decide
theorem test_decode_rsvd9 : decodeFirst 0b10010000000000000000000000000000#32 = .command .rsvd9 := by decide
theorem test_decode_rsvdA : decodeFirst 0b10100000000000000000000000000000#32 = .command .rsvdA := by decide
theorem test_decode_rsvdB : decodeFirst 0b10110000000000000000000000000000#32 = .command .rsvdB := by decide
theorem test_decode_rsvdC : decodeFirst 0b11000000000000000000000000000000#32 = .command .rsvdC := by decide
theorem test_decode_rsvdD : decodeFirst 0b11010000000000000000000000000000#32 = .command .rsvdD := by decide
theorem test_decode_rsvdE : decodeFirst 0b11100000000000000000000000000000#32 = .command .rsvdE := by decide
theorem test_decode_rsvdF : decodeFirst 0b11110001001000110100010101100111#32 = .command .rsvdF := by decide

/-- The words of V2, from the encoder. -/
theorem test_encode :
    encode (.setf (-1) 1000) = [0x2FF003E8#32] ∧ encode (.setf 127 (-524288)) = [0x27F80000#32] ∧
    encode (.en 127) = [0x37F00000#32] ∧ encode (.dis (-128)) = [0x48000000#32] ∧
    encode (.init [{ pin := 255, freq := -1 }]) = [0x10000001#32, 0x0FFFFFFF#32] := by decide

theorem test_decode_stops :
    decode [] = .error .noWord ∧ decode [0x10000002#32, 0x009003E8#32] = .error .payloadIncomplete := by decide

/-- A table word: a word alone, and an INIT whose one payload word lies above 32 table bits, so reads 0. -/
theorem test_table_word :
    decodeTableWord 32 0x201003E8 = some (.setf 1 1000) ∧
    decodeTableWord 32 0x10000001 = some (.init [{ pin := 0, freq := 0 }]) ∧
    decodeTableWord 64 0x003001B810000001 = some (.init [{ pin := 3, freq := 440 }]) := by decide

/-- A table word runs in the very next step after reset. -/
theorem test_fetch_word :
    seen State.reset 0 (step (State.reset.withFetchWord 32 0x10000001)) =
      some (some (chan 0 0 0 false .low), [.timerStart 125]) ∧
    (nextOf (step (State.reset.withFetchWord 32 0x201003E8))) = some State.reset := by decide

/-! ## One step of each instruction -/

theorem test_nop : nextOf (step (trio.present [.cmd 0x0FFFFFFF#32])) = some trio := by decide

/-- S3. -/
theorem test_init_first :
    (nextOf (exec (.init [{ pin := 2, freq := 0 }, { pin := 3, freq := 440 }, { pin := 4, freq := 0 }]) State.reset)).map
      (fun t => (t.running, t.count, t.ch.take 4, t.outputs)) =
    some (true, 3, [chan 2 0 0 false .low, chan 3 19 0 true .low, chan 4 0 0 false .low, chan 0 0 0 false .low],
      [.timerStart 125]) := by decide

/-- P5: nine pairs requested of seven channels; and a second INIT. -/
theorem test_init_clamps_and_second_ignored :
    (nextOf (exec (.init ((List.range 9).map (fun (k : Nat) => { pin := BitVec.ofNat 8 (10 + k), freq := 700 })))
      State.reset)).map (fun t => (t.count, t.ch.length, (t.ch[6]?).map Channel.pin)) = some (7, 7, some 16) ∧
    nextOf (exec (.init [{ pin := 99, freq := 1000 }]) trio) = some trio := by decide

/-- V4: the range check's ends. -/
theorem test_setf_range :
    seen trio 1 (exec (.setf 1 60) trio) = some (some (chan 3 134 0 true .high), []) ∧
    seen trio 1 (exec (.setf 1 59) trio) = some (some (chan 3 0 0 true .low), [.pinWrite 3 .low]) ∧
    seen trio 1 (exec (.setf 1 4000) trio) = some (some (chan 3 2 0 true .high), []) ∧
    seen trio 1 (exec (.setf 1 4001) trio) = some (some (chan 3 0 0 true .low), [.pinWrite 3 .low]) := by decide

/-- V4: the same frequency again, a disabled channel, invalid indices. -/
theorem test_setf_index :
    seen trio 1 (exec (.setf 1 440) trio) = some (some (chan 3 19 0 true .high), []) ∧
    seen trio 0 (exec (.setf 0 1000) trio) = some (some (chan 2 8 0 false .low), []) ∧
    nextOf (exec (.setf 3 1000) trio) = some trio ∧ nextOf (exec (.setf (-1) 1000) trio) = some trio := by decide

/-- V5. -/
theorem test_en :
    seen trio 0 (exec (.en 0) trio) = some (some (chan 2 0 0 true .low), []) ∧
    nextOf (exec (.en 3) trio) = some trio ∧ nextOf (exec (.en (-1)) trio) = some trio := by decide

/-- V5. -/
theorem test_dis :
    seen trio 1 (exec (.dis 1) trio) = some (some (chan 3 19 7 false .high), []) ∧
    nextOf (exec (.dis 127) trio) = some trio := by decide

theorem test_reserved :
    nextOf (step (trio.present [.cmd 0x50000000#32])) = some trio ∧
    nextOf (step (trio.present [.cmd 0xF1234567#32])) = some trio := by decide

/-- V6, as one channel's step and its pin write. -/
theorem test_tick_channel :
    (chan 7 8 7 true .low).ticked = chan 7 8 8 true .low ∧
    (chan 7 8 8 true .low).ticked = chan 7 8 0 true .high ∧
    (chan 7 8 8 false .low).ticked = chan 7 8 0 false .low ∧
    (chan 7 8 8 false .low).tickOutputs = [.pinWrite 7 .low] ∧
    (chan 7 8 9 true .low).ticked = chan 7 8 0 true .high ∧
    (chan 7 0 0xFFFFF false .low).ticked = chan 7 0 0 false .low ∧ (chan 7 0 5 false .low).tickOutputs = [] := by
  decide

/-- Two edges in one tick come out in index order (P3, tick 15). -/
theorem test_tick_order :
    seen State.reset 0 (step ((bank [chan 5 2 2 true .low, chan 6 4 4 true .low]).present [.tick])) =
      some (some (chan 5 2 0 true .high), [.pinWrite 5 .high, .pinWrite 6 .high]) := by decide

theorem test_reset : nextOf (step (trio.present [.reset])) = some State.reset := by decide

/-- V1. -/
theorem test_ticksFor : ticksFor 3999 8000 = 3 ∧ ticksFor 4001 8000 = 2 ∧ ticksFor 440 44100 = 101 := by decide

/-- R85, R87: case, signs, hexadecimal pins, a comment, a directive; P5's two bare words; what is no command word. -/
theorem test_assemble :
    assemble "SETF 1, -5 ; low\ninit 1, (0x10,+440)\n.tick 2\nmute 1".toList =
      some [.cmd 0x201FFFFB#32, .cmd 0x10000001#32, .cmd 0x010001B8#32, .tick, .tick, .cmd 0x20100000#32] ∧
    assemble "0x50000000   ; reserved opcode: NOP\n0xF1234567".toList = some [.cmd 0x50000000#32, .cmd 0xF1234567#32] ∧
    assemble ".TICK +2".toList = some [.tick, .tick] ∧ assemble ".tick -1".toList = none ∧
    assemble "0x100000000".toList = none ∧ assemble "0x".toList = none ∧ assemble "50000000".toList = none := by
  decide

/-! ## Witnesses: a concrete state and operands that meet a statement's hypotheses -/

/-- A channel alone on its pin, by looking at the bank. -/
theorem ownsPin_of {s : State} {j : Nat} {c : Channel} (hj : j < s.count) (hc : s.ch[j]? = some c)
    (h : (List.range s.count).all (fun k => k == j || (s.ch[k]?).all (fun d => d.pin != c.pin)) = true) :
    s.ownsPin j c := by
  refine ⟨hj, hc, fun k d hk hd hne => ?_⟩
  have := List.all_eq_true.1 h k (List.mem_range.2 hk)
  simpa [hd, hne] using this

/-- The invariant, by looking at the bank. -/
theorem inv_of {s : State} (h1 : s.ch.length = s.params.cap) (h2 : s.dec.stage.length = s.params.cap)
    (h3 : s.count ≤ s.params.cap) (h4 : s.running = false → s.count = 0)
    (h5 : ∀ c ∈ s.ch.drop s.count, c = Channel.atReset)
    (h6 : ∀ c ∈ s.ch, c.tph.toNat ≤ s.params.fMaster ∧ (0 < c.tph.toNat → c.cnt.toNat ≤ c.tph.toNat) ∧
      (c.tph = 0 → c.lvl = .low))
    (h7 : s.dec.mode = .payload → s.dec.seen.toNat < s.dec.total.toNat) : s.Inv := by
  refine ⟨h1, h2, h3, h4, fun j c hj hc => h5 c ?_, fun j c hc => (h6 c (List.mem_of_getElem? hc)).1,
    fun j c hc => (h6 c (List.mem_of_getElem? hc)).2.1, fun j c hc => (h6 c (List.mem_of_getElem? hc)).2.2, h7⟩
  exact List.mem_of_getElem? (i := j - s.count) (by rw [List.getElem?_drop, Nat.add_sub_cancel' hj]; exact hc)

/-- `duo`'s channels alone on their pins: 0 enabled at its edge, 1 disabled-high in mid-count. -/
theorem witness_ownsPin : duo.ownsPin 0 (chan 5 8 8 true .low) ∧ duo.ownsPin 1 (chan 6 4 1 false .high) :=
  ⟨ownsPin_of (by decide) (by decide) (by decide), ownsPin_of (by decide) (by decide) (by decide)⟩

/-- O2: a word for each row of the table, the two INIT clauses at COUNT 0 and 255. -/
theorem witness_OpcodeTableSelectsByTopFourBits :
    (∀ op : BitVec 4, encodeN op &&& 0xF0000000#32 = op ++ 0x0#28) ∧
    (0x1FFFFF00#32 &&& 0xF0000000#32 = 0x10000000#32 ∧ (0x1FFFFF00#32).extractLsb' 0 8 = 0#8) ∧
    (0x100000FF#32 &&& 0xF0000000#32 = 0x10000000#32 ∧ (0x100000FF#32).extractLsb' 0 8 ≠ 0#8) := by decide

/-- O3, O5: well-formed commands at the ends of their operands' ranges. -/
theorem witness_EncodeFollowsFormulasAndDecodesBack :
    (Instr.init (List.replicate 255 { pin := 255, freq := -524288 })).wellFormed = true ∧
    (Instr.setf (-128) 524287).wellFormed = true ∧ (Instr.en (-128)).wellFormed = true ∧
    (Instr.dis 127).wellFormed = true := by decide +kernel

/-- O4. -/
theorem witness_DecodedWordsReencodeCanonically :
    decode [0x1ABCDE01#32, 0xF03001B8#32, 0x30000000#32] =
      .ok (.init [{ pin := 3, freq := 440 }], [0x30000000#32]) := by decide

/-- O5: an EN word and a payload word that differ in ignored bits, for an idle and for a receiving decoder. -/
theorem witness_IgnoredBitsHaveNoEffect :
    (0x3FF00001#32 &&& usedBits (opOf 0x3FF00001#32) = 0x3FF00000#32 &&& usedBits (opOf 0x3FF00001#32) ∧
      trio.dec.mode = .idle) ∧
    (0xF03001B8#32 &&& payloadBits = 0x003001B8#32 &&& payloadBits ∧
      ({ trio with dec := { trio.dec with mode := .payload, total := 1 } } : State).dec.mode = .payload) := by decide

/-- O6. -/
theorem witness_StepRunsDecodedCommand :
    trio.dec.mode = .idle ∧ decodeFirst 0x40100000#32 = .command (.dis 1) := by decide

/-- An INIT of three pairs being received after its first pair, in a block that does not run yet. -/
def midInit : State :=
  { State.reset with dec := { mode := .payload, total := 3, seen := 1, stage := State.reset.dec.stage.set 0 { pin := 2, freq := 0 } } }

/-- O7: an idle decoder with a word of each case, a decoder with more words to come, and one at its last word. -/
theorem witness_DecoderTakesOneWordPerEvent :
    trio.dec.mode = .idle ∧ (0x0FFFFFFF#32).extractLsb' 28 4 = 0x0#4 ∧
    ((0x10000000#32).extractLsb' 28 4 = 0x1#4 ∧ (0x10000000#32).extractLsb' 0 8 = 0#8) ∧
    ((0x100000FF#32).extractLsb' 28 4 = 0x1#4 ∧ (0x100000FF#32).extractLsb' 0 8 ≠ 0#8) ∧
    (0x201003E8#32).extractLsb' 28 4 = 0x2#4 ∧ (0x30700000#32).extractLsb' 28 4 = 0x3#4 ∧
    (0x48000000#32).extractLsb' 28 4 = 0x4#4 ∧ 5 ≤ ((0x50000000#32).extractLsb' 28 4).toNat ∧
    midInit.dec.mode = .payload ∧ midInit.dec.seen + 1 ≠ midInit.dec.total ∧
    ({ midInit.dec with seen := 2 } : Decoder).seen + 1 = midInit.dec.total := by decide

/-- O8, and O19's second clause in a running block. -/
theorem witness_DeliveredCommandExecutesOnce :
    decode [0x10000002#32, 0x009003E8#32, 0x00900000#32, 0x0#32] =
      .ok (.init [{ pin := 9, freq := 1000 }, { pin := 9, freq := 0 }], [0x0#32]) ∧
    trio.dec.mode = .idle ∧ trio.dec.stage.length = trio.params.cap ∧ trio.running = true := by decide

/-- O9: its five clauses. -/
theorem witness_InitIsAtomicAtItsLastWord :
    (trio.dec.mode = .idle ∧ decodeFirst 0x10000002#32 = .initHeader 2#8) ∧ midInit.awaitsMore = true ∧
    (({ midInit.dec with seen := 2 } : Decoder).mode = .payload ∧
      ({ midInit.dec with seen := 2 } : Decoder).seen + 1 = midInit.dec.total) ∧
    decodeFirst 0x10000000#32 = .command (.init []) := by decide

/-- O10: P4's INIT with two ticks between its payload words. -/
theorem witness_InitWithTicksBetweenItsWords :
    let pairs : List ChannelInit := [{ pin := 9, freq := 1000 }, { pin := 9, freq := 0 }]
    let es : List Event := [.cmd 0x10000002#32, .cmd 0x009003E8#32, .tick, .tick, .cmd 0x00900000#32]
    (Instr.init pairs).wellFormed = true ∧ State.reset.dec.mode = .idle ∧
    State.reset.dec.stage.length = State.reset.params.cap ∧
    es.filter (fun e => decide (e ≠ .tick)) = (encode (.init pairs)).map .cmd ∧ es.getLast? ≠ some .tick := by decide

/-- O11: two blocks that differ in a staging entry not written yet. -/
theorem witness_StagingIsNeverReadBeforeWritten :
    midInit.sameButUnreadStage
      { midInit with dec := { midInit.dec with stage := midInit.dec.stage.set 1 { pin := 77, freq := 77 } } } := by
  refine ⟨rfl, rfl, rfl, rfl, rfl, rfl, rfl, by decide, fun _ => ⟨rfl, rfl, ?_⟩⟩
  intro j h _
  have h : j < 1 := h
  obtain rfl : j = 0 := by omega
  decide

/-- O14. -/
theorem witness_WaitsWhenNothingIsPresented : trio.inputs = [] := by decide

/-- O16, second clause. -/
theorem witness_ResetValuesAndInertUntilInit : State.reset.count = 0 := by decide

/-- O17: a word of NOP and one of a reserved opcode, for an idle decoder. -/
theorem witness_NopAndReservedOpcodesDoNothing :
    Instr.rsvdF ∈ [Instr.nop, .rsvd5, .rsvd6, .rsvd7, .rsvd8, .rsvd9, .rsvdA, .rsvdB, .rsvdC, .rsvdD, .rsvdE, .rsvdF] ∧
    trio.dec.mode = .idle ∧ (0x0FFFFFFF#32).extractLsb' 28 4 = 0x0#4 ∧
    5 ≤ ((0x50000000#32).extractLsb' 28 4).toNat := by decide

/-- O18, O25: a block that does not run; 30 Hz is below F_MIN. -/
theorem witness_FirstInit :
    State.reset.running = false ∧ State.reset.ch.length = State.reset.params.cap ∧ (0 : Int) < 30 ∧
    (30 : Int) < (State.reset.params.fMin : Int) := by decide

/-- O20: a valid index with frequencies at both ends of the range, on the enabled and on a disabled channel. -/
theorem witness_SetfInRange :
    (0 : Int) ≤ 1 ∧ (1 : Int) < (trio.count : Int) ∧ trio.ch[(1 : Int).toNat]? = some (chan 3 19 7 true .high) ∧
    (trio.params.fMin : Int) ≤ 60 ∧ 2 * (60 : Int) ≤ (trio.params.fMaster : Int) ∧
    (trio.params.fMin : Int) ≤ 4000 ∧ 2 * (4000 : Int) ≤ (trio.params.fMaster : Int) := by decide

/-- O21, O22, O24, O26 to O30: the valid indices 0 and 2 (the last), with frequencies just out of range. -/
theorem witness_SetfOutOfRange :
    (0 : Int) ≤ 0 ∧ (0 : Int) < (trio.count : Int) ∧ trio.ch[(0 : Int).toNat]? = some (chan 2 0 0 false .low) ∧
    (0 : Int) ≤ 2 ∧ (2 : Int) < (trio.count : Int) ∧ trio.ch[(2 : Int).toNat]? = some (chan 4 0 0 false .low) ∧
    (59 : Int) < (trio.params.fMin : Int) ∧ (trio.params.fMaster : Int) < 2 * 4001 ∧ trio.dec.mode = .idle := by decide

/-- O23, and the second clauses of O27 and O28: −1 and `count` are invalid. -/
theorem witness_InvalidIndexIsANoOp : (-1 : Int) < 0 ∧ (trio.count : Int) ≤ 3 := by decide

/-- O24: an INIT with a tone above F_MASTER / 2, and a SETF, both answering a next state. -/
theorem witness_TickCountsWrittenAreInRange :
    (State.reset.running = false ∧ (State.reset.params.fMaster : Int) < 2 * 4001 ∧
      ∃ t d, exec (.init [{ pin := 5, freq := 4001 }]) State.reset = .next t ∧ 0 < t.count ∧ t.ch[0]? = some d) ∧
    ∃ t d, exec (.setf 1 60) trio = .next t ∧ t.ch[(1 : Int).toNat]? = some d :=
  ⟨⟨by decide, by decide, _, _, rfl, by decide, rfl⟩, _, _, rfl, rfl⟩

/-- O30: EN, DIS and a silencing SETF, each twice. -/
theorem witness_RepeatedCommands :
    (∃ t, exec (.en 0) trio = .next t) ∧ (∃ t, exec (.dis 1) trio = .next t) ∧
    ∃ t u, exec (.setf 1 0) trio = .next t ∧ exec (.setf 1 0) t = .next u :=
  ⟨⟨_, rfl⟩, ⟨_, rfl⟩, _, _, rfl, rfl⟩

/-- O31 to O33: f and M at their least, f dividing M, f from 2667 to 3999. -/
theorem witness_TicksFor :
    (1 : Int) ≤ 1 ∧ 1 ≤ 1 ∧ (1000 : Int) ∣ ((8000 : Nat) : Int) ∧ (2667 : Int) ≤ 3999 ∧
    (Params.default.fMin : Int) ≤ 4000 ∧ 2 * (4000 : Int) ≤ (Params.default.fMaster : Int) := by decide

/-- O35: both branches of the per-channel step, and a channel not in use. -/
theorem witness_TickStepsEveryChannelInIndexOrder :
    (0 < duo.count ∧ duo.ch[0]? = some (chan 5 8 8 true .low)) ∧
    (1 < duo.count ∧ duo.ch[1]? = some (chan 6 4 1 false .high)) ∧ duo.count ≤ 2 := by decide

/-- O36. -/
theorem witness_TickIssuesAtMostCountPinWrites : ∃ t, step (duo.present [.tick]) = .next t := ⟨_, rfl⟩

/-- O37: two blocks that differ in channel 1 and agree on channel 0. -/
theorem witness_OtherChannelsDoNotMatter :
    let s := duo
    let t := duo.setChannel 1 (chan 9 3 3 true .low)
    s ≠ t ∧ s.params = t.params ∧ s.running = t.running ∧ s.count = t.count ∧ s.dec = t.dec ∧ s.ch[0]? = t.ch[0]? := by
  decide

/-- O38, O39, O41, O42, O44 and O45: channels alone on their pins with T > 0 and c ≤ T, at c = T and below, enabled and
not; the frequency of O45 with as many ticks as its tick count. -/
theorem witness_StretchesOfTicks :
    (duo.ownsPin 0 (chan 5 8 8 true .low) ∧ duo.ownsPin 1 (chan 6 4 1 false .high)) ∧ duo.dec.mode = .idle ∧
    0 < (8#20).toNat ∧ (8#20).toNat ≤ (8#20).toNat ∧ (1#20).toNat ≤ (4#20).toNat ∧
    (duo.params.fMin : Int) ≤ 1000 ∧ 2 * (1000 : Int) ≤ (duo.params.fMaster : Int) ∧
    8 ≤ ticksFor 1000 duo.params.fMaster :=
  ⟨witness_ownsPin, by decide, by decide, by decide, by decide, by decide, by decide, by decide⟩

/-- O42: a disabling within a half-period and one across an edge. -/
theorem witness_DisableThenEnableKeepsThePhase :
    edgeCount 8 5 2 = 0 ∧ edgeCount 8 3 6 ≠ 0 ∧ trio.dec.mode = .idle ∧ 1 < trio.count ∧
    trio.ch[1]? = some (chan 3 19 7 true .high) := by decide

/-- O40: an enabled channel at the start of its count. -/
theorem witness_EnabledChannelMakesASquareWave :
    let s := bank [chan 3 19 0 true .low]
    0 < s.count ∧ s.ch[0]? = some (chan 3 19 0 true .low) := by decide

/-- O43: a silent channel alone on its pin, its counter about to wrap. -/
theorem witness_SilentChannelIsNeverTouchedByTicks :
    (bank [chan 7 0 0xFFFFF false .low, chan 8 3 0 true .low]).ownsPin 0 (chan 7 0 0xFFFFF false .low) :=
  ownsPin_of (by decide) (by decide) (by decide)

/-- O46: an INIT of one channel, each of the four pairs at an edge event, and commands in range and out of range. -/
theorem witness_ChannelStateMachineTable :
    (State.reset.running = false ∧ ∃ t d, exec (.init [{ pin := 5, freq := 440 }]) State.reset = .next t ∧
      0 < t.count ∧ t.ch[0]? = some d) ∧
    (∀ (e : Bool) (l : Level), 0 < (bank [chan 5 8 8 e l]).count ∧ (bank [chan 5 8 8 e l]).ch[0]? = some (chan 5 8 8 e l)) ∧
    0 < (8#20).toNat ∧ (8#20).toNat ≤ (8#20).toNat ∧
    (duo.params.fMin : Int) ≤ 4000 ∧ 2 * (4000 : Int) ≤ (duo.params.fMaster : Int) ∧
    (0 : Int) < (duo.params.fMin : Int) :=
  ⟨⟨by decide, _, _, rfl, by decide, rfl⟩, fun e l => ⟨show 0 < 1 by decide, rfl⟩, by decide, by decide, by decide,
    by decide, by decide⟩

/-- O47: a tick with an edge, and a silencing SETF, each adding a pin write. -/
theorem witness_OnlyEdgesAndSilencingWritePins :
    (∃ t, step (duo.present [.tick]) = .next t ∧ t.outputs = [.pinWrite 5 .high]) ∧
    ∃ t, step (trio.present [.cmd 0x20100000#32]) = .next t ∧ t.outputs = [.pinWrite 3 .low] :=
  ⟨⟨_, rfl, by decide⟩, _, rfl, by decide⟩

/-- O19, first clause, O48, O49: steps without a Reset in which a block starts, and steps of a running block. -/
theorem witness_TimerStartsOncePerReset :
    (∃ t, steps 1 (State.reset.present [.cmd 0x10000000#32]) = .next t ∧ State.reset.running = false ∧
      t.running = true) ∧
    Event.reset ∉ (State.reset.present [.cmd 0x10000000#32]).inputs.take 1 ∧
    (∃ t, steps 2 (trio.present [.tick, .cmd 0x40100000#32]) = .next t) ∧ trio.running = true ∧
    Event.reset ∉ (trio.present [.tick, .cmd 0x40100000#32]).inputs.take 2 :=
  ⟨⟨_, rfl, by decide, by decide⟩, by decide, ⟨_, rfl⟩, by decide, by decide⟩

/-- O50: a flag that EN sets and one that DIS clears. -/
theorem witness_OnlyEnableAndDisableWriteTheFlag :
    (∃ t c d, step (trio.present [.cmd 0x30000000#32]) = .next t ∧ trio.ch[0]? = some c ∧ t.ch[0]? = some d ∧
      d.en ≠ c.en) ∧
    (∃ t c d, step (trio.present [.cmd 0x40100000#32]) = .next t ∧ trio.ch[1]? = some c ∧ t.ch[1]? = some d ∧
      d.en ≠ c.en) ∧ trio.running = true :=
  ⟨⟨_, _, _, rfl, rfl, rfl, by decide⟩, ⟨_, _, _, rfl, rfl, rfl, by decide⟩, by decide⟩

/-- O51. -/
theorem witness_PortPriorityIsResetTickCommand : duo.inputs = [] := by decide

/-- O52. -/
theorem witness_InitLeavesThePinLatchAlone :
    (∃ t, exec (.init [{ pin := 5, freq := 440 }]) State.reset = .next t) ∧
    ∃ t, exec (.setf 1 0) trio = .next t ∧ trio.ch[(1 : Int).toNat]? = some (chan 3 19 7 true .high) :=
  ⟨⟨_, rfl⟩, _, rfl, rfl⟩

/-- O54: a running block with a disabled-high channel, about to take a tick with an edge. -/
theorem witness_EveryStepKeepsTheInvariant :
    (duo.present [.tick]).Inv ∧ ∃ t, step (duo.present [.tick]) = .next t :=
  ⟨inv_of (by decide) (by decide) (by decide) (by decide) (by decide) (by decide) (by decide), _, rfl⟩

/-- O55: a running block whose channel 0 has written HIGH and whose channel 1 has written nothing. -/
theorem witness_EveryStepKeepsLevelAsLastWrite :
    let s : State := { bank [chan 3 8 2 true .high, chan 4 8 2 true .low] with
      outputs := [.timerStart 125, .pinWrite 3 .high], inputs := [.tick] }
    s.LevelIsLastWrite ∧ ∃ t, step s = .next t := by
  refine ⟨?_, _, rfl⟩
  rintro j c ⟨hj, hc, -⟩
  have hj : j < 2 := hj
  obtain rfl | rfl : j = 0 ∨ j = 1 := by omega
  · cases Option.some.inj hc; exact .inl (by decide)
  · cases Option.some.inj hc; exact .inr (by decide)

end Sys2Proof.Tests
end

