-- ==== Sys2Proof/Proofs/InitAtomicity.lean ====
section
/-! PROOFS. INIT's words one event at a time (20_memory.md R61): what the decoder makes of each, as an equation of
`takeEvent`, and the statement that INIT is atomic at its last word. -/

namespace Sys2Proof.Machine

section
variable {s : State} {w : Word}

theorem takeEvent_idle_command (hm : s.dec.mode = .idle) {i : Instr} (hw : decodeFirst w = .command i) :
    takeEvent (.cmd w) s = exec i s := by
  rw [takeEvent_cmd, takeWord_idle s w hm, takeFirst, hw]

theorem takeEvent_idle_initHeader (hm : s.dec.mode = .idle) {n : BitVec 8} (hw : decodeFirst w = .initHeader n) :
    takeEvent (.cmd w) s = .next { s with dec := { s.dec with mode := .payload, total := n, seen := 0 } } := by
  rw [takeEvent_cmd, takeWord_idle s w hm, takeFirst, hw]

theorem State.awaitsMore_iff : s.awaitsMore = true ↔ s.dec.mode = .payload ∧ s.dec.seen + 1 ≠ s.dec.total := by
  simp [State.awaitsMore]

theorem Decoder.afterPayload_mode_of_last {d : Decoder} (hl : d.seen + 1 = d.total) (cap : Nat) :
    (d.afterPayload cap w).mode = .idle := if_pos hl

theorem Decoder.afterPayload_mode_of_not_last {d : Decoder} (hl : d.seen + 1 ≠ d.total) (cap : Nat) :
    (d.afterPayload cap w).mode = .payload := if_neg hl

theorem takeEvent_payload_last (hm : s.dec.mode = .payload) (hl : s.dec.seen + 1 = s.dec.total) :
    takeEvent (.cmd w) s = exec (.init ((s.dec.afterPayload s.params.cap w).handed s.params.cap))
      { s with dec := s.dec.afterPayload s.params.cap w } := by
  rw [takeEvent_cmd, takeWord_payload s w hm, takePayload, if_pos hl]

theorem takeEvent_awaitsMore (h : s.awaitsMore = true) :
    takeEvent (.cmd w) s = .next { s with dec := s.dec.afterPayload s.params.cap w } := by
  obtain ⟨hm, hl⟩ := State.awaitsMore_iff.1 h
  rw [takeEvent_cmd, takeWord_payload s w hm, takePayload, if_neg hl]

/-- A tick sees the same bank before and after a payload word that is not the last, and the decoder takes the word the
same before and after the tick. -/
theorem runEvents_payload_tick_comm (h : s.awaitsMore = true) :
    runEvents [.cmd w, .tick] s = runEvents [.tick, .cmd w] s := by
  have hTick : (tickStep s).awaitsMore = true := h
  calc runEvents [.cmd w, .tick] s
      = .next (tickStep { s with dec := s.dec.afterPayload s.params.cap w }) := by
        simp [runEvents_cons, takeEvent_awaitsMore h]
    _ = .next { tickStep s with dec := s.dec.afterPayload s.params.cap w } :=
        congrArg _ (tickStep_iterate_withDec 1 s _)
    _ = runEvents [.tick, .cmd w] s := by
        simp [runEvents_cons, takeEvent_awaitsMore hTick]

end

/-- Settles O9: the header and a payload word before the last only write the decoder, so ticks pass them by; the last
word runs INIT in its own event. -/
theorem initIsAtomicAtItsLastWord : Obligations.InitIsAtomicAtItsLastWord := by
  refine ⟨?header, ?payload, ?ticks, ?last, ?empty⟩
  case header =>
    intro s es w n hm hw
    exact ⟨_, rfl, takeEvent_idle_initHeader (s := { s with inputs := es }) hm hw⟩
  case payload =>
    intro s es w h
    exact ⟨_, Decoder.afterPayload_mode_of_not_last (State.awaitsMore_iff.1 h).2 _,
      takeEvent_awaitsMore (s := { s with inputs := es }) h⟩
  case ticks =>
    intro s w h
    exact runEvents_payload_tick_comm h
  case last =>
    intro s es w hm hl
    exact ⟨_, _, Decoder.afterPayload_mode_of_last hl _,
      takeEvent_payload_last (s := { s with inputs := es }) hm hl⟩
  case empty =>
    intro s es w hm hw
    exact takeEvent_idle_command (s := { s with inputs := es }) hm hw

end Sys2Proof.Machine
end

