-- ==== Sys2Proof/Proofs/WordMasks.lean ====
section
/-! PROOFS. What a mask keeps of a command word (30_encoding.md R71, R80, R82): a field whose bits the mask has all set
is the same in two words that agree under the mask. From this, the opcode table and the statement on ignored bits. -/

namespace Sys2Proof.Machine

/-! ## Fields under a mask -/

section Fields
variable {w v m : Word}

theorem extractLsb'_eq_of_and_eq {start len : Nat} (hm : m.extractLsb' start len = BitVec.allOnes len)
    (h : w &&& m = v &&& m) : w.extractLsb' start len = v.extractLsb' start len := by
  have hf := congrArg (BitVec.extractLsb' start len) h
  rwa [BitVec.extractLsb'_and, BitVec.extractLsb'_and, hm, BitVec.and_allOnes, BitVec.and_allOnes] at hf

theorem opOf_eq_of_and_eq (hm : opOf m = BitVec.allOnes 4) (h : w &&& m = v &&& m) : opOf w = opOf v :=
  extractLsb'_eq_of_and_eq hm h

theorem countOf_eq_of_and_eq (hm : countOf m = BitVec.allOnes 8) (h : w &&& m = v &&& m) : countOf w = countOf v :=
  extractLsb'_eq_of_and_eq hm h

theorem pinOf_eq_of_and_eq (hm : pinOf m = BitVec.allOnes 8) (h : w &&& m = v &&& m) : pinOf w = pinOf v :=
  extractLsb'_eq_of_and_eq hm h

/-- IDX stands where PIN stands in a payload word (R74, R76). -/
theorem idxOf_eq_of_and_eq (hm : pinOf m = BitVec.allOnes 8) (h : w &&& m = v &&& m) : idxOf w = idxOf v :=
  congrArg BitVec.toInt (pinOf_eq_of_and_eq hm h)

theorem freqBitsOf_eq_of_and_eq (hm : freqBitsOf m = BitVec.allOnes 20) (h : w &&& m = v &&& m) :
    freqBitsOf w = freqBitsOf v :=
  extractLsb'_eq_of_and_eq hm h

/-- The mask of every row of the opcode table reads OP (R80). -/
theorem opOf_eq_of_match {r : Word} (h : w &&& 0xF0000000#32 = r) : opOf w = opOf r := by
  apply opOf_eq_of_and_eq (m := 0xF0000000#32) (by decide)
  rw [← h, BitVec.and_assoc, BitVec.and_self]

end Fields

/-! ## The opcode table -/

/-- Settles O2: the mask of each row reads OP, and OP alone chooses the decoder's arm; INIT's arm looks at COUNT. -/
theorem opcodeTableSelectsByTopFourBits : Obligations.OpcodeTableSelectsByTopFourBits := by
  intro w
  refine ⟨?_, ?initWhole, ?initHeader, ?_, ?_, ?_, ?_, ?_, ?_, ?_, ?_, ?_, ?_, ?_, ?_, ?_, ?_⟩
  case initWhole =>
    intro h hc
    rw [decodeFirst, opOf_eq_of_match h]
    exact if_pos hc
  case initHeader =>
    intro h hc
    rw [decodeFirst, opOf_eq_of_match h]
    exact if_neg hc
  all_goals
    intro h
    rw [decodeFirst, opOf_eq_of_match h]
    rfl

/-! ## Words that agree but for ignored bits -/

/-- Every format uses OP (R71). -/
theorem opOf_usedBits (op : BitVec 4) : opOf (usedBits op) = BitVec.allOnes 4 := by
  revert op; decide

section Congruence
variable {w v : Word}

/-- What the decoder reads of a first word: OP, and the fields that OP's format has (R71, R78). -/
theorem decodeFirst_congr (hop : opOf w = opOf v) (hcount : opOf v = 0x1#4 → countOf w = countOf v)
    (hidx : opOf v = 0x2#4 ∨ opOf v = 0x3#4 ∨ opOf v = 0x4#4 → idxOf w = idxOf v)
    (hfreq : opOf v = 0x2#4 → freqOf w = freqOf v) : decodeFirst w = decodeFirst v := by
  unfold decodeFirst
  rw [hop]
  split
  case h_2 h => rw [hcount h]
  case h_3 h => rw [hidx (.inl h), hfreq h]
  case h_4 h => rw [hidx (.inr (.inl h))]
  case h_5 h => rw [hidx (.inr (.inr h))]
  all_goals rfl

theorem decodeFirst_eq_of_usedBits (h : w &&& usedBits (opOf w) = v &&& usedBits (opOf w)) :
    decodeFirst w = decodeFirst v := by
  have hop : opOf w = opOf v := opOf_eq_of_and_eq (opOf_usedBits _) h
  rw [hop] at h
  refine decodeFirst_congr hop (fun h1 => ?count) (fun hi => ?idx) (fun h2 => ?freq)
  case count =>
    rw [h1] at h
    exact countOf_eq_of_and_eq (by decide) h
  case idx =>
    refine idxOf_eq_of_and_eq ?_ h
    obtain h2 | h3 | h4 := hi
    · rw [h2]; decide
    · rw [h3]; decide
    · rw [h4]; decide
  case freq =>
    rw [h2] at h
    exact congrArg BitVec.toInt (freqBitsOf_eq_of_and_eq (by decide) h)

theorem takeEvent_idle_congr {s : State} (hm : s.dec.mode = .idle) (h : decodeFirst w = decodeFirst v) :
    takeEvent (.cmd w) s = takeEvent (.cmd v) s := by
  simp only [takeEvent_cmd, takeWord_idle _ _ hm, takeFirst, h]

/-- What the decoder reads of a payload word: PIN and FREQ (R76, R78). -/
theorem takeEvent_payload_congr {s : State} (hm : s.dec.mode = .payload) (hpin : pinOf w = pinOf v)
    (hfreq : freqBitsOf w = freqBitsOf v) : takeEvent (.cmd w) s = takeEvent (.cmd v) s := by
  simp only [takeEvent_cmd, takeWord_payload _ _ hm, takePayload, Decoder.afterPayload, Decoder.staged, hpin, hfreq]

end Congruence

/-! ## The encoder writes ignored bits 0 -/

theorem encodeN_and_usedBits (op : BitVec 4) : encodeN op &&& usedBits op = encodeN op := by
  revert op; decide

theorem encodeHeader_and_usedBits (n : BitVec 8) : encodeHeader n &&& usedBits 0x1#4 = encodeHeader n := by
  have hm : usedBits 0x1#4 = BitVec.allOnes 4 ++ 0x0#20 ++ BitVec.allOnes 8 := by decide
  rw [hm, encodeHeader, BitVec.and_append, BitVec.and_append, BitVec.and_allOnes, BitVec.and_allOnes, BitVec.and_self]

theorem encodeF_and_usedBits (i f : Int) : encodeF 0x2#4 i f &&& usedBits 0x2#4 = encodeF 0x2#4 i f :=
  BitVec.and_allOnes

theorem encodeI_and_usedBits {op : BitVec 4} (hop : op = 0x3#4 ∨ op = 0x4#4) (i : Int) :
    encodeI op i &&& usedBits op = encodeI op i := by
  have hm : usedBits op = BitVec.allOnes 4 ++ BitVec.allOnes 8 ++ 0x0#20 := by
    obtain rfl | rfl := hop <;> decide
  rw [hm, encodeI, BitVec.and_append, BitVec.and_append, BitVec.and_allOnes, BitVec.and_allOnes, BitVec.and_self]

theorem encodePayload_and_payloadBits (x : ChannelInit) : encodePayload x &&& payloadBits = encodePayload x := by
  have hm : payloadBits = 0x0#4 ++ BitVec.allOnes 8 ++ BitVec.allOnes 20 := by decide
  rw [hm, encodePayload, BitVec.and_append, BitVec.and_append, BitVec.and_allOnes, BitVec.and_allOnes, BitVec.and_self]

/-- A command of one word that has no ignored bit set is its own canonical form. -/
theorem clearIgnored_singleton {op : BitVec 4} {w : Word} (hop : opOf w = op) (h : w &&& usedBits op = w) :
    clearIgnored [w] = [w] := by
  rw [clearIgnored, hop, h, List.map_nil]

theorem clearIgnored_encode_init (pairs : List ChannelInit) :
    clearIgnored (encode (.init pairs)) = encode (.init pairs) := by
  have hp : (fun p => p &&& payloadBits) ∘ encodePayload = encodePayload := funext encodePayload_and_payloadBits
  rw [encode, clearIgnored, opOf_header, encodeHeader_and_usedBits, List.map_map, hp]

theorem clearIgnored_encode (i : Instr) : clearIgnored (encode i) = encode i := by
  cases i with
  | init pairs => exact clearIgnored_encode_init pairs
  | setf i f => exact clearIgnored_singleton (opOf_encodeF _ i f) (encodeF_and_usedBits i f)
  | en i => exact clearIgnored_singleton (opOf_encodeI _ i) (encodeI_and_usedBits (.inl rfl) i)
  | dis i => exact clearIgnored_singleton (opOf_encodeI _ i) (encodeI_and_usedBits (.inr rfl) i)
  | _ => exact clearIgnored_singleton (opOf_encodeN _) (encodeN_and_usedBits _)

/-- Settles O5: the used bits of a first word hold every field its format has, PIN and FREQ are all the decoder reads of
a payload word, and every format is put together from its fields and zeros. -/
theorem ignoredBitsHaveNoEffect : Obligations.IgnoredBitsHaveNoEffect := by
  refine ⟨?first, ?payload, ?encoder, by decide, by decide⟩
  case first =>
    intro w v h
    have hd : decodeFirst w = decodeFirst v := decodeFirst_eq_of_usedBits h
    exact ⟨hd, fun s es hm => takeEvent_idle_congr (s := { s with inputs := es }) hm hd⟩
  case payload =>
    intro w v h
    have hpin : pinOf w = pinOf v := pinOf_eq_of_and_eq (by decide) h
    have hfreq : freqBitsOf w = freqBitsOf v := freqBitsOf_eq_of_and_eq (by decide) h
    refine ⟨?_, fun s es hm => takeEvent_payload_congr (s := { s with inputs := es }) hm hpin hfreq⟩
    rw [decodePayload, decodePayload, freqOf, freqOf, hpin, hfreq]
  case encoder =>
    intro i _
    exact clearIgnored_encode i

end Sys2Proof.Machine
end

