-- ==== Sys2Proof/Proofs/LeastMultiple.lean ====
section
/-! PROOFS. The tick count of a frequency as the least multiple that reaches F_MASTER, over the integers
(40_tick_converter.md R100). -/

namespace Sys2Proof.Machine

/-- The tick counts that are enough are those whose multiple of f reaches M. -/
theorem ticksFor_le_iff {f : Int} (hf : 0 < f) (m k : Nat) : ticksFor f m ≤ k ↔ (m : Int) ≤ k * f := by
  lift f to Nat using hf.le
  rw [ticksFor_of_pos hf, Int.toNat_natCast, ceilDiv_le_iff (by omega)]
  norm_cast

/-- The closed form: `ceilDiv` on naturals, its subtraction never truncated, is the integer quotient. -/
theorem natCast_ticksFor {f : Int} (hf : 0 < f) (m : Nat) : (ticksFor f m : Int) = ((m : Int) + f - 1) / f := by
  lift f to Nat using hf.le
  have hsub : ((m + f - 1 : Nat) : Int) = m + f - 1 := by omega
  rw [ticksFor_of_pos hf, Int.toNat_natCast, ceilDiv, Int.natCast_ediv, hsub]

/-- Settles O31: both minimality clauses are the two directions of `ticksFor_le_iff`. -/
theorem ticksForIsTheLeastMultiple : Obligations.TicksForIsTheLeastMultiple := by
  intro f m hf _
  exact ⟨(ticksFor_le_iff hf m _).1 le_rfl, fun k => (ticksFor_le_iff hf m k).2, natCast_ticksFor hf m⟩

end Sys2Proof.Machine
end

