-- ==== Sys2Proof/Proofs/InitDelivery.lean ====
section
/-! PROOFS. INIT delivered word by word and executed (30_encoding.md R70, R77, R78; 41_control_commands.md R112 to
R116): the payload of one INIT as an induction over its words, what the first INIT leaves, and what a second one
leaves. -/

namespace Sys2Proof.Machine

/-! ## Delivery of a command -/

/-- The payload words still to come, delivered, execute INIT with all its pairs; the induction is over those words. -/
theorem runEvents_payload {got left : List Word} {s : State} (hleft : left ≠ [])
    (h : s.dec.Received s.params.cap got left) :
    ∃ d : Decoder, d.mode = .idle ∧ d.stage.length = s.params.cap ∧
      runEvents (left.map .cmd) s = exec (.init ((got ++ left).map decodePayload)) { s with dec := d } := by
  induction left generalizing got s with
  | nil => exact absurd rfl hleft
  | cons w left ih =>
    rw [List.map_cons, runEvents_cons]
    obtain ⟨rfl, d, hmode, hstage, hlast⟩ | ⟨hmore, d, hd, hword⟩ := takeEvent_payload h
    · obtain ⟨t, ht⟩ := exec_next (.init ((got ++ [w]).map decodePayload)) { s with dec := d }
      refine ⟨d, hmode, hstage, ?_⟩
      rw [hlast, ht]
      rfl
    · obtain ⟨e, hmode, hstage, hrest⟩ := ih (s := { s with dec := d }) hmore hd
      refine ⟨e, hmode, hstage, ?_⟩
      rw [hword, andThen_next, hrest, List.append_assoc, List.singleton_append]

/-- The header of an INIT with payload leaves the decoder with no word received and its COUNT to come. -/
theorem received_after_header {d : Decoder} {cap : Nat} {n : BitVec 8} {left : List Word}
    (hstage : d.stage.length = cap) (hn : left.length = n.toNat) :
    Decoder.Received cap { d with mode := .payload, total := n, seen := 0 } [] left :=
  ⟨rfl, hstage, rfl, by simp [hn], fun _ _ hj => absurd hj (Nat.not_lt_zero _)⟩

/-- The header of an INIT and all its payload words, delivered to an idle decoder, execute it. -/
theorem runEvents_header_payload {w : Word} {n : BitVec 8} {left : List Word} {s : State}
    (hw : decodeFirst w = .initHeader n) (hn : left.length = n.toNat) (hmode : s.dec.mode = .idle)
    (hstage : s.dec.stage.length = s.params.cap) :
    ∃ d : Decoder, d.mode = .idle ∧ d.stage.length = s.params.cap ∧
      runEvents ((w :: left).map .cmd) s = exec (.init (left.map decodePayload)) { s with dec := d } := by
  have hleft : left ≠ [] := by
    obtain ⟨-, -, hn0⟩ := decodeFirst_header_inv hw
    rw [← List.length_pos_iff, hn]
    exact Nat.pos_of_ne_zero (BitVec.toNat_ne.1 hn0)
  rw [List.map_cons, runEvents_cons, takeEvent_idle_initHeader hmode hw, andThen_next]
  exact runEvents_payload (s := { s with dec := { s.dec with mode := .payload, total := n, seen := 0 } }) hleft
    (received_after_header hstage hn)

/-- A command that is complete with its first word has one word (30_encoding.md R70). -/
theorem wordCount_of_decodeFirst {w : Word} {i : Instr} (h : decodeFirst w = .command i) : i.wordCount = 1 := by
  unfold decodeFirst at h
  split at h
  case h_2 =>
    split at h
    · cases h; rfl
    · cases h
  all_goals
    cases h
    rfl

/-- The words of the command at the head of a list, delivered to an idle decoder, do what the command does. -/
theorem runEvents_decoded {ws rest : List Word} {i : Instr} {s : State} (hw : decode ws = .ok (i, rest))
    (hmode : s.dec.mode = .idle) (hstage : s.dec.stage.length = s.params.cap) :
    ∃ d : Decoder, d.mode = .idle ∧ d.stage.length = s.params.cap ∧
      runEvents ((ws.take i.wordCount).map .cmd) s = exec i { s with dec := d } := by
  obtain ⟨w, us, rfl, ⟨hfirst, -⟩ | ⟨n, hfirst, hn, rfl, -⟩⟩ := decode_cases hw
  · refine ⟨s.dec, hmode, hstage, ?_⟩
    obtain ⟨t, ht⟩ := exec_next i s
    have hevent : takeEvent (.cmd w) s = .next t := (takeEvent_idle_command hmode hfirst).trans ht
    rw [wordCount_of_decodeFirst hfirst, List.take_succ_cons, List.take_zero, List.map_cons, List.map_nil,
      runEvents_cons, hevent]
    exact ht.symm
  · have hlen : (us.take n.toNat).length = n.toNat := List.length_take_of_le hn
    rw [Instr.wordCount, List.length_map, hlen, Nat.add_comm, List.take_succ_cons]
    exact runEvents_header_payload hfirst hlen hmode hstage

/-! ## INIT executed -/

theorem exec_init_of_not_running {s : State} (h : s.running = false) (pairs : List ChannelInit) :
    exec (.init pairs) s = .next (startBank pairs s) := by
  simp [exec, execInit, h]

theorem exec_init_of_running {s : State} (h : s.running = true) (pairs : List ChannelInit) :
    exec (.init pairs) s = .next s := by
  simp [exec, execInit, h]

/-- A positive frequency gives an enabled channel with the frequency's tick count, whatever its size (R113). -/
theorem initChannel_of_pos (p : Params) {x : ChannelInit} (h : 0 < x.freq) :
    (initChannel p x).en = true ∧ (initChannel p x).tph.toNat = ceilDiv p.fMaster x.freq.toNat := by
  refine ⟨decide_eq_true h, ?_⟩
  rw [initChannel, if_pos h, ticksFor_toNat p h, ticksFor_of_pos h]

theorem initChannel_of_nonpos (p : Params) {x : ChannelInit} (h : x.freq ≤ 0) :
    (initChannel p x).en = false ∧ (initChannel p x).tph = 0 :=
  ⟨decide_eq_false (by omega), if_neg (by omega)⟩

section StartBank
variable {s : State} {pairs : List ChannelInit} {j : Nat}

theorem startBank_length (hbank : s.ch.length = s.params.cap) : (startBank pairs s).ch.length = s.ch.length :=
  initBank_length _ _ _ (by rw [List.length_take, hbank]; exact min_le_left _ _)

/-- A pair among the first CAP writes its channel (R112). -/
theorem startBank_used (hbank : s.ch.length = s.params.cap) (hj : j < s.params.cap) {x : ChannelInit}
    (hx : pairs[j]? = some x) : (startBank pairs s).ch[j]? = some (initChannel s.params x) := by
  have hpair : (pairs.take s.params.cap)[j]? = some x := by rw [List.getElem?_take_of_lt hj, hx]
  have hold : s.ch[j]? = some s.ch[j] := List.getElem?_eq_getElem (hbank ▸ hj)
  rw [startBank_ch, initBank_getElem?, hpair, hold]

/-- A channel beyond the pairs used keeps its record (R114). -/
theorem startBank_unused (hj : (startBank pairs s).count ≤ j) : (startBank pairs s).ch[j]? = s.ch[j]? := by
  have hpair : (pairs.take s.params.cap)[j]? = none := by
    rw [startBank_count, Nat.min_comm, ← List.length_take] at hj
    exact List.getElem?_eq_none hj
  rw [startBank_ch, initBank_getElem?, hpair]
  cases s.ch[j]? <;> rfl

end StartBank

/-- Settles O18: the bank after the first INIT, channel by channel, by whether a pair is used for it and by the sign of
the pair's frequency. -/
theorem firstInitSetsUpBankAndStartsClock : Obligations.FirstInitSetsUpBankAndStartsClock := by
  intro pairs s hrun hbank
  refine ⟨startBank pairs s, exec_init_of_not_running hrun pairs, rfl, rfl, startBank_length hbank, ?used,
    fun j => startBank_unused, rfl, rfl, rfl, rfl⟩
  case used =>
    intro j x hj hx
    exact ⟨initChannel s.params x, startBank_used hbank hj hx, rfl, rfl, rfl, initChannel_of_pos s.params,
      initChannel_of_nonpos s.params⟩

/-- Settles O19: the words of an INIT do what INIT does in a state that differs in the decoder only, and there a
running block ignores it. -/
theorem secondInitIsConsumedAndIgnored : Obligations.SecondInitIsConsumedAndIgnored := by
  refine ⟨fun pairs s hrun => exec_init_of_running hrun pairs, ?delivered⟩
  case delivered =>
    intro ws rest pairs s hw hrun hmode hstage
    obtain ⟨d, hidle, -, hd⟩ := runEvents_decoded hw hmode hstage
    exact ⟨d, hidle, hd.trans (exec_init_of_running (s := { s with dec := d }) hrun pairs)⟩

end Sys2Proof.Machine
end

