-- ==== Sys2Proof/Proofs/ChannelCommands.lean ====
section
/-! PROOFS. The commands that select one channel or nothing: SETF, EN and DIS (41_control_commands.md R110, R119 to
R128), and those that do nothing: NOP and the reserved opcodes (R111, R130). -/

namespace Sys2Proof.Machine

/-- What the write of one channel record leaves unchanged. -/
theorem State.setChannel_frame (k : Nat) (c : Channel) (s : State) :
    (∀ j, j ≠ k → (s.setChannel k c).ch[j]? = s.ch[j]?) ∧ (s.setChannel k c).ch.length = s.ch.length ∧
    (s.setChannel k c).outputs = s.outputs ∧ (s.setChannel k c).running = s.running ∧
    (s.setChannel k c).count = s.count ∧ (s.setChannel k c).dec = s.dec ∧ (s.setChannel k c).inputs = s.inputs ∧
    (s.setChannel k c).params = s.params :=
  ⟨fun _ => State.setChannel_other, List.length_set, rfl, rfl, rfl, rfl, rfl, rfl⟩

theorem selected_of_valid {s : State} {i : Int} {c : Channel} (h0 : 0 ≤ i) (hlt : i < (s.count : Int))
    (hc : s.ch[i.toNat]? = some c) : selected i s = some (i.toNat, c) :=
  selected_eq_some.2 ⟨h0, hlt, rfl, hc⟩

/-! ## SETF -/

theorem freqInRange_iff {p : Params} {f : Int} :
    freqInRange p f = true ↔ (p.fMin : Int) ≤ f ∧ 2 * f ≤ (p.fMaster : Int) := decide_eq_true_iff

theorem exec_setf_of_selected {s : State} {i : Int} {k : Nat} {c : Channel} (h : selected i s = some (k, c))
    (f : Int) : exec (.setf i f) s = .next (setFrequency k c f s) := by
  simp [exec, execSetf, h]

theorem setFrequency_of_inRange {s : State} {f : Int} (h : freqInRange s.params f = true) (k : Nat) (c : Channel) :
    setFrequency k c f s = s.setChannel k (c.retuned s.params f) := if_pos h

/-- SETF adds nothing to the outputs in range, and one pin write out of range. -/
theorem setFrequency_outputs_eq_iff (k : Nat) (c : Channel) (f : Int) (s : State) :
    (setFrequency k c f s).outputs = s.outputs ↔ freqInRange s.params f = true := by
  obtain ⟨hf, h⟩ | ⟨hf, h⟩ := setFrequency_cases k c f s
  · simp [h, hf]
  · simp [h, hf]

/-- Settles O20: SETF in range writes one record, the retuned one. -/
theorem setfInRangeRetunesAndRestartsPhase : Obligations.SetfInRangeRetunesAndRestartsPhase := by
  intro s i f c h0 hlt hc hmin hmax
  have hpos : 0 < f := by
    have := s.params.fMinRange.1
    omega
  have hexec : exec (.setf i f) s = .next (s.setChannel i.toNat (c.retuned s.params f)) := by
    rw [exec_setf_of_selected (selected_of_valid h0 hlt hc), setFrequency_of_inRange (freqInRange_iff.2 ⟨hmin, hmax⟩)]
  have htph : (c.retuned s.params f).tph.toNat = ticksFor f s.params.fMaster := ticksFor_toNat s.params hpos
  obtain ⟨htwo, hle⟩ := ticksFor_inRange s.params hmin hmax
  exact ⟨_, c.retuned s.params f, hexec, State.setChannel_self hc, rfl, htph.trans (ticksFor_of_pos hpos _),
    htwo.trans_eq htph.symm, htph.trans_le hle, rfl, rfl, rfl, State.setChannel_frame _ _ _⟩

/-- Settles O22: SETF is silent on its outputs exactly in range; the rest is arithmetic on the two bounds. -/
theorem setfRangeCheckIsInclusive : Obligations.SetfRangeCheckIsInclusive := by
  intro s i f c h0 hlt hc
  have hrange := (setFrequency_outputs_eq_iff i.toNat c f s).trans freqInRange_iff
  have hmin := s.params.fMinRange.1
  refine ⟨_, exec_setf_of_selected (selected_of_valid h0 hlt hc) f, hrange, hrange.trans ?half, ?nonpos, ?noneInRange⟩
  case half => omega
  case nonpos =>
    intro hf
    rw [ne_eq, hrange]
    omega
  case noneInRange =>
    intro hfew
    rw [ne_eq, hrange]
    omega

/-! ## EN and DIS -/

section SetEnabled
variable (b : Bool) {s : State} {i : Int}

/-- EN and DIS with a valid index write the selected record, and of it the flag (R126, R128). -/
theorem setEnabled_of_valid {c : Channel} (h0 : 0 ≤ i) (hlt : i < (s.count : Int)) (hc : s.ch[i.toNat]? = some c) :
    setEnabled i b s = s.setChannel i.toNat (c.withEn b) := by
  rw [setEnabled, selected_of_valid h0 hlt hc]

theorem setEnabled_of_invalid (h : i < 0 ∨ (s.count : Int) ≤ i) : setEnabled i b s = s := by
  rw [setEnabled, selected_invalid h]

end SetEnabled

/-- Settles O27: EN writes the record with its flag set, or nothing. -/
theorem enableSetsOnlyItsFlag : Obligations.EnableSetsOnlyItsFlag := by
  intro s i
  refine ⟨?valid, fun h => congrArg Host.Outcome.next (setEnabled_of_invalid true h)⟩
  case valid =>
    intro c h0 hlt hc
    exact ⟨_, congrArg Host.Outcome.next (setEnabled_of_valid true h0 hlt hc), State.setChannel_self hc,
      State.setChannel_frame _ _ _⟩

/-- Settles O28: DIS writes the record with its flag cleared, or nothing. -/
theorem disableClearsOnlyItsFlag : Obligations.DisableClearsOnlyItsFlag := by
  intro s i
  refine ⟨?valid, fun h => congrArg Host.Outcome.next (setEnabled_of_invalid false h)⟩
  case valid =>
    intro c h0 hlt hc
    exact ⟨_, congrArg Host.Outcome.next (setEnabled_of_valid false h0 hlt hc), State.setChannel_self hc,
      State.setChannel_frame _ _ _⟩

/-! ## NOP and the reserved opcodes -/

theorem exec_noEffect {i : Instr} (s : State)
    (hi : i ∈ [.nop, .rsvd5, .rsvd6, .rsvd7, .rsvd8, .rsvd9, .rsvdA, .rsvdB, .rsvdC, .rsvdD, .rsvdE, .rsvdF]) :
    exec i s = .next s := by
  cases i with
  | init _ => simp at hi
  | setf _ _ => simp at hi
  | en _ => simp at hi
  | dis _ => simp at hi
  | _ => rfl

/-- Settles O17: such a word decodes to one of the twelve commands, whatever its other bits, and each does nothing. -/
theorem nopAndReservedOpcodesDoNothing : Obligations.NopAndReservedOpcodesDoNothing := by
  refine ⟨fun i s hi => exec_noEffect s hi, ?word⟩
  case word =>
    intro s es w hmode hop
    obtain ⟨i, hfirst, hi⟩ := decodeFirst_idle hop
    exact (takeEvent_idle_command (s := { s with inputs := es }) hmode hfirst).trans (exec_noEffect _ hi)

end Sys2Proof.Machine
end

