-- ==== Sys2Proof/Proofs/TickStep.lean ====
section
/-! PROOFS. The tick step on the bank (42_tick_step.md R140, R141, R143): what it does to one channel, and its pin
writes listed by index. -/

namespace Sys2Proof.Machine

/-- The per-channel step in full, by the edge-event condition on numbers (R141, R143). -/
theorem Channel.ticked_cnt_lvl (c : Channel) :
    if 0 < c.tph.toNat ∧ c.tph.toNat ≤ c.cnt.toNat
    then c.ticked.cnt = 0 ∧ c.ticked.lvl = c.toggledLevel
    else c.ticked.cnt.toNat = (c.cnt.toNat + 1) % 2 ^ 20 ∧ c.ticked.lvl = c.lvl := by
  split
  case isTrue hedge =>
    rw [c.ticked_of_edge (c.edgeDue_iff.2 hedge)]
    exact ⟨rfl, rfl⟩
  case isFalse hnot =>
    rw [c.ticked_of_no_edge (Bool.eq_false_iff.2 (mt c.edgeDue_iff.1 hnot))]
    exact ⟨BitVec.toNat_add _ _, rfl⟩

theorem Channel.tickOutputs_eq_ite (c : Channel) :
    c.tickOutputs = if 0 < c.tph.toNat ∧ c.tph.toNat ≤ c.cnt.toNat then [.pinWrite c.pin c.toggledLevel] else [] := by
  simp only [Channel.tickOutputs, Channel.edgeDue_iff]

/-- The pin writes of a tick, listed by index: an index without a record writes nothing. -/
theorem tickBankOutputs_eq_range_flatMap (n : Nat) (cs : List Channel) :
    tickBankOutputs n cs = (List.range n).flatMap (fun i => (cs[i]?).elim [] Channel.tickOutputs) := by
  induction n generalizing cs with
  | zero => rfl
  | succ n ih =>
    cases cs with
    | nil => simp [tickBankOutputs]
    | cons c cs => simp [tickBankOutputs, ih, List.range_succ_eq_map, List.flatMap_map]

/-- Settles O35: the bank and the outputs of `tickStep` index by index; all else is untouched by definition. -/
theorem tickStepsEveryChannelInIndexOrder : Obligations.TickStepsEveryChannelInIndexOrder := by
  intro s es
  refine ⟨tickStep { s with inputs := es }, rfl, ?used, ?unused, tickBank_length _ _, ?outputs, rfl, rfl, rfl, rfl, rfl⟩
  case used =>
    intro i c hi hc
    refine ⟨c.ticked, ?_, c.ticked_pin, c.ticked_tph, c.ticked_en, c.ticked_cnt_lvl⟩
    rw [tickStep_ch, tickBank_getElem?, if_pos hi, hc, Option.map_some]
  case unused =>
    intro i hi
    rw [tickStep_ch, tickBank_getElem?, if_neg (Nat.not_lt.2 hi)]
  case outputs =>
    rw [tickStep_outputs, tickBankOutputs_eq_range_flatMap]
    refine congrArg (s.outputs ++ ·) (List.flatMap_congr fun i _ => ?_)
    cases s.ch[i]? with
    | none => rfl
    | some c => exact c.tickOutputs_eq_ite

end Sys2Proof.Machine
end

