-- ==== Sys2Proof/Proofs/RoundTrip.lean ====
section
/-! PROOFS. Decode and encode as inverses (30_encoding.md section 5): the numbers of the formulas of R84, a command from
its canonical words, and the canonical words from whatever words a command came in (R82). -/

namespace Sys2Proof.Machine

/-! ## The formulas -/

section Formulas
variable (op : BitVec 4) (i f : Int)

theorem encodeI_toNat : (encodeI op i).toNat = op.toNat * 2 ^ 28 + (i % 2 ^ 8).toNat * 2 ^ 20 := by
  rw [encodeI, fields_toNat, BitVec.toNat_ofInt]
  exact Nat.add_zero _

theorem encodeF_toNat :
    (encodeF op i f).toNat = op.toNat * 2 ^ 28 + (i % 2 ^ 8).toNat * 2 ^ 20 + (f % 2 ^ 20).toNat := by
  rw [encodeF, fields_toNat, BitVec.toNat_ofInt, BitVec.toNat_ofInt]
  rfl

theorem encodePayload_toNat (x : ChannelInit) :
    (encodePayload x).toNat = x.pin.toNat * 2 ^ 20 + (x.freq % 2 ^ 20).toNat := by
  rw [encodePayload, fields_toNat, BitVec.toNat_ofInt]
  exact congrArg (· + _) (Nat.zero_add _)

end Formulas

theorem wellFormed_init_iff {pairs : List ChannelInit} :
    (Instr.init pairs).wellFormed = true ↔ pairs.length ≤ 255 ∧ ∀ x ∈ pairs, freqEncodable x.freq = true := by
  simp [Instr.wellFormed]

/-- COUNT of the header of an INIT in range is the number of its pairs (R73). -/
theorem count_toNat {pairs : List ChannelInit} (h : pairs.length ≤ 255) :
    (BitVec.ofNat 8 pairs.length).toNat = pairs.length := by
  rw [BitVec.toNat_ofNat, Nat.mod_eq_of_lt (by omega)]

theorem encode_init_toNat {pairs : List ChannelInit} (h : pairs.length ≤ 255) :
    (encode (.init pairs)).map BitVec.toNat =
      (0x10000000 + pairs.length) :: pairs.map (fun x => x.pin.toNat * 2 ^ 20 + (x.freq % 2 ^ 20).toNat) := by
  have hpayload : BitVec.toNat ∘ encodePayload = fun x => x.pin.toNat * 2 ^ 20 + (x.freq % 2 ^ 20).toNat :=
    funext encodePayload_toNat
  rw [encode, List.map_cons, List.map_map, header_toNat, count_toNat h, hpayload]

/-! ## Decode after encode -/

theorem decode_of_command {w : Word} {i : Instr} (h : decodeFirst w = .command i) (rest : List Word) :
    decode (w :: rest) = .ok (i, rest) := by
  simp only [decode, h]

theorem decode_of_initHeader {w : Word} {n : BitVec 8} (h : decodeFirst w = .initHeader n) {ws : List Word}
    (hn : ws.length = n.toNat) (rest : List Word) :
    decode (w :: (ws ++ rest)) = .ok (.init (ws.map decodePayload), rest) := by
  have hle : n.toNat ≤ (ws ++ rest).length := by simp [hn]
  simp only [decode, h]
  rw [if_pos hle, ← hn, List.take_left, List.drop_left]

theorem decodeFirst_encodeF {i f : Int} (hi : idxEncodable i = true) (hf : freqEncodable f = true) :
    decodeFirst (encodeF 0x2#4 i f) = .command (.setf i f) := by
  simp [decodeFirst, idx_roundTrip hi, freq_roundTrip hf]

theorem decodeFirst_encodeI_en {i : Int} (hi : idxEncodable i = true) :
    decodeFirst (encodeI 0x3#4 i) = .command (.en i) := by
  simp [decodeFirst, idx_roundTrip hi]

theorem decodeFirst_encodeI_dis {i : Int} (hi : idxEncodable i = true) :
    decodeFirst (encodeI 0x4#4 i) = .command (.dis i) := by
  simp [decodeFirst, idx_roundTrip hi]

theorem map_decodePayload_encodePayload {pairs : List ChannelInit} (h : ∀ x ∈ pairs, freqEncodable x.freq = true) :
    (pairs.map encodePayload).map decodePayload = pairs := by
  rw [List.map_map]
  exact (List.map_congr_left fun x hx => decodePayload_encodePayload (h x hx)).trans (List.map_id pairs)

/-- An INIT of no pair is one word; any other has a header that says how many payload words follow. -/
theorem decode_encode_init {pairs : List ChannelInit} (h : (Instr.init pairs).wellFormed = true) (rest : List Word) :
    decode (encode (.init pairs) ++ rest) = .ok (.init pairs, rest) := by
  obtain ⟨hlen, hfreq⟩ := wellFormed_init_iff.1 h
  cases pairs with
  | nil => exact decode_of_command (decodeFirst_header 0) rest
  | cons x xs =>
    have hcount := count_toNat hlen
    have hpos : BitVec.ofNat 8 (x :: xs).length ≠ 0 := by
      rw [BitVec.toNat_ne, hcount]
      exact Nat.succ_ne_zero _
    have hfirst := (decodeFirst_header _).trans (if_neg hpos)
    rw [encode, List.cons_append, decode_of_initHeader hfirst (by rw [List.length_map, hcount]),
      map_decodePayload_encodePayload hfreq]

theorem decode_encode {i : Instr} (h : i.wellFormed = true) (rest : List Word) :
    decode (encode i ++ rest) = .ok (i, rest) := by
  cases i with
  | init pairs => exact decode_encode_init h rest
  | setf i f =>
    obtain ⟨hi, hf⟩ := Bool.and_eq_true_iff.1 h
    exact decode_of_command (decodeFirst_encodeF hi hf) rest
  | en i => exact decode_of_command (decodeFirst_encodeI_en h) rest
  | dis i => exact decode_of_command (decodeFirst_encodeI_dis h) rest
  | _ => exact decode_of_command (by decide) rest

/-- Settles O3: a word's number is the sum of its fields' numbers at their places, and each field in range is read back
as it was written. -/
theorem encodeFollowsFormulasAndDecodesBack : Obligations.EncodeFollowsFormulasAndDecodesBack := by
  refine ⟨by decide, fun pairs h => encode_init_toNat (wellFormed_init_iff.1 h).1, fun i f _ => ?setf, fun i _ => ?en,
    fun i _ => ?dis, fun i rest h => decode_encode h rest⟩
  case setf => exact congrArg ([·]) (encodeF_toNat _ i f)
  case en => exact congrArg ([·]) (encodeI_toNat _ i)
  case dis => exact congrArg ([·]) (encodeI_toNat _ i)

/-- Settles O1: thirteen closed words. -/
theorem decodeReadsWrittenWords : Obligations.DecodeReadsWrittenWords := by
  unfold Obligations.DecodeReadsWrittenWords
  decide

/-! ## Encode after decode -/

section Cut
variable (w : Word)

theorem word_eq_fields : w = opOf w ++ pinOf w ++ freqBitsOf w := by
  have h1 : opOf w ++ pinOf w = w.extractLsb' 20 12 := BitVec.extractLsb'_append_extractLsb'_eq_extractLsb' rfl
  have h2 : w.extractLsb' 20 12 ++ freqBitsOf w = w.extractLsb' 0 32 :=
    BitVec.extractLsb'_append_extractLsb'_eq_extractLsb' rfl
  rw [h1, h2, BitVec.extractLsb'_eq_self]

theorem word_eq_header_fields : w = opOf w ++ w.extractLsb' 8 20 ++ countOf w := by
  have h1 : opOf w ++ w.extractLsb' 8 20 = w.extractLsb' 8 24 :=
    BitVec.extractLsb'_append_extractLsb'_eq_extractLsb' rfl
  have h2 : w.extractLsb' 8 24 ++ countOf w = w.extractLsb' 0 32 :=
    BitVec.extractLsb'_append_extractLsb'_eq_extractLsb' rfl
  rw [h1, h2, BitVec.extractLsb'_eq_self]

theorem word_eq_opcode_rest : w = opOf w ++ w.extractLsb' 0 28 := by
  have h : opOf w ++ w.extractLsb' 0 28 = w.extractLsb' 0 32 :=
    BitVec.extractLsb'_append_extractLsb'_eq_extractLsb' rfl
  rw [h, BitVec.extractLsb'_eq_self]

theorem encodeN_opOf : encodeN (opOf w) = w &&& 0xF0000000#32 := by
  have hm : 0xF0000000#32 = BitVec.allOnes 4 ++ 0x0#28 := by decide
  conv_rhs => rw [word_eq_opcode_rest w, hm, BitVec.and_append, BitVec.and_allOnes, BitVec.and_zero]
  rfl

theorem encodeI_idxOf : encodeI (opOf w) (idxOf w) = w &&& 0xFFF00000#32 := by
  have hm : 0xFFF00000#32 = BitVec.allOnes 4 ++ BitVec.allOnes 8 ++ 0x0#20 := by decide
  conv_rhs => rw [word_eq_fields w, hm, BitVec.and_append, BitVec.and_append, BitVec.and_allOnes, BitVec.and_allOnes,
    BitVec.and_zero]
  rw [encodeI, idxOf, BitVec.ofInt_toInt]
  rfl

theorem encodeF_idxOf_freqOf : encodeF (opOf w) (idxOf w) (freqOf w) = w := by
  rw [encodeF, idxOf, freqOf, BitVec.ofInt_toInt, BitVec.ofInt_toInt]
  exact (word_eq_fields w).symm

theorem encodeHeader_countOf (h : opOf w = 0x1#4) : encodeHeader (countOf w) = w &&& 0xF00000FF#32 := by
  have hm : 0xF00000FF#32 = BitVec.allOnes 4 ++ 0x0#20 ++ BitVec.allOnes 8 := by decide
  conv_rhs => rw [word_eq_header_fields w, hm, BitVec.and_append, BitVec.and_append, BitVec.and_allOnes,
    BitVec.and_allOnes, BitVec.and_zero, h]
  rfl

theorem encodePayload_decodePayload : encodePayload (decodePayload w) = w &&& payloadBits := by
  have hm : payloadBits = 0x0#4 ++ BitVec.allOnes 8 ++ BitVec.allOnes 20 := by decide
  conv_rhs => rw [word_eq_fields w, hm, BitVec.and_append, BitVec.and_append, BitVec.and_allOnes, BitVec.and_allOnes,
    BitVec.and_zero]
  rw [encodePayload, decodePayload, freqOf, BitVec.ofInt_toInt]

end Cut

/-- A command complete with its first word: in range, and its canonical word is that word with ignored bits cleared. -/
theorem encode_of_decodeFirst {w : Word} {i : Instr} (h : decodeFirst w = .command i) :
    i.wellFormed = true ∧ encode i = [w &&& usedBits (opOf w)] := by
  unfold decodeFirst at h
  split at h
  case h_2 hop =>
    split at h
    case isTrue hcount =>
      cases h
      have hw := encodeHeader_countOf w hop
      rw [hcount] at hw
      rw [hop]
      exact ⟨rfl, congrArg ([·]) hw⟩
    case isFalse => cases h
  case h_3 hop =>
    cases h
    refine ⟨Bool.and_eq_true_iff.2 ⟨idxEncodable_idxOf w, freqEncodable_freqOf w⟩, ?_⟩
    have hw := encodeF_idxOf_freqOf w
    rw [hop] at hw ⊢
    exact congrArg ([·]) (hw.trans BitVec.and_allOnes.symm)
  case h_4 hop | h_5 hop =>
    cases h
    refine ⟨idxEncodable_idxOf w, ?_⟩
    have hw := encodeI_idxOf w
    rw [hop] at hw ⊢
    exact congrArg ([·]) hw
  case h_16 =>
    cases h
    have hop : opOf w = 0xF#4 := by
      generalize opOf w = op at *
      revert op
      decide
    have hw := encodeN_opOf w
    rw [hop] at hw ⊢
    exact ⟨rfl, congrArg ([·]) hw⟩
  all_goals
    cases h
    have hw := encodeN_opOf w
    rename_i hop
    rw [hop] at hw ⊢
    exact ⟨rfl, congrArg ([·]) hw⟩

/-- An INIT header and its payload: in range, and its canonical words are those words with ignored bits cleared. -/
theorem encode_of_initHeader {w : Word} {n : BitVec 8} (h : decodeFirst w = .initHeader n) {ws : List Word}
    (hn : ws.length = n.toNat) :
    (Instr.init (ws.map decodePayload)).wellFormed = true ∧
      encode (.init (ws.map decodePayload)) = clearIgnored (w :: ws) := by
  obtain ⟨hop, hcount, -⟩ := decodeFirst_header_inv h
  constructor
  · have hlt := n.isLt
    refine wellFormed_init_iff.2 ⟨by rw [List.length_map]; omega, ?_⟩
    simp only [List.forall_mem_map]
    exact fun p _ => freqEncodable_freqOf p
  · have hcanon : BitVec.ofNat 8 (ws.map decodePayload).length = countOf w := by
      rw [List.length_map, hn, hcount, BitVec.ofNat_toNat, BitVec.setWidth_eq]
    have hpayload : encodePayload ∘ decodePayload = fun p => p &&& payloadBits := funext encodePayload_decodePayload
    rw [encode, clearIgnored, hcanon, encodeHeader_countOf w hop, hop, List.map_map, hpayload]
    rfl

/-- Settles O4: a word is put together from its fields, so writing the fields that the decoder read, and zeros, is
clearing the ignored bits. -/
theorem decodedWordsReencodeCanonically : Obligations.DecodedWordsReencodeCanonically := by
  intro ws rest i h
  obtain ⟨w, us, rfl, ⟨hfirst, rfl⟩ | ⟨n, hfirst, hn, rfl, rfl⟩⟩ := decode_cases h
  · obtain ⟨hwf, hcanon⟩ := encode_of_decodeFirst hfirst
    rw [wordCount_of_decodeFirst hfirst]
    exact ⟨hwf, rfl, rfl, hcanon⟩
  · have hlen : (us.take n.toNat).length = n.toNat := List.length_take_of_le hn
    obtain ⟨hwf, hcanon⟩ := encode_of_initHeader hfirst hlen
    rw [Instr.wordCount, List.length_map, hlen, Nat.add_comm, List.take_succ_cons]
    exact ⟨hwf, congrArg (w :: ·) (List.take_append_drop _ us).symm, by rw [List.length_cons, hlen], hcanon⟩

end Sys2Proof.Machine
end

