-- ==== Sys2Proof/Proofs/WordDelivery.lean ====
section
/-! PROOFS. The decoder word by word (30_encoding.md R78): its cases, a command delivered, and INIT delivered with ticks
between its words (20_memory.md R61). -/

namespace Sys2Proof.Machine

/-! ## The decoder's cases -/

section Idle
variable {w : Word}

theorem decodeFirst_of_init_empty (hop : opOf w = 0x1#4) (hcount : countOf w = 0) :
    decodeFirst w = .command (.init []) := by
  rw [decodeFirst, hop]
  exact if_pos hcount

theorem decodeFirst_of_init_header (hop : opOf w = 0x1#4) (hcount : countOf w ≠ 0) :
    decodeFirst w = .initHeader (countOf w) := by
  rw [decodeFirst, hop]
  exact if_neg hcount

theorem decodeFirst_of_setf (hop : opOf w = 0x2#4) : decodeFirst w = .command (.setf (idxOf w) (freqOf w)) := by
  rw [decodeFirst, hop]
  rfl

theorem decodeFirst_of_en (hop : opOf w = 0x3#4) : decodeFirst w = .command (.en (idxOf w)) := by
  rw [decodeFirst, hop]
  rfl

theorem decodeFirst_of_dis (hop : opOf w = 0x4#4) : decodeFirst w = .command (.dis (idxOf w)) := by
  rw [decodeFirst, hop]
  rfl

end Idle

section Payload
variable (cap : Nat) (w : Word) (d : Decoder)

/-- Staging writes the entry at `seen`, if the buffer has room for it, and no other (R77). -/
theorem Decoder.staged_getElem?_eq_ite (j : Nat) :
    (d.staged cap w)[j]? =
      if j = d.seen.toNat ∧ j < cap then (d.stage[j]?).map (fun _ => { pin := pinOf w, freq := freqBitsOf w })
      else d.stage[j]? := by
  unfold Decoder.staged
  split
  case isTrue hroom =>
    rw [List.getElem?_set']
    by_cases hj : d.seen.toNat = j
    · rw [if_pos hj, if_pos ⟨hj.symm, hj ▸ hroom⟩]
      rfl
    · rw [if_neg hj, if_neg (fun h => hj h.1.symm)]
  case isFalse hfull => rw [if_neg (fun h : j = d.seen.toNat ∧ j < cap => hfull (h.1 ▸ h.2))]

theorem Decoder.afterPayload_of_last (h : d.seen + 1 = d.total) :
    d.afterPayload cap w = { mode := .idle, total := d.total, seen := d.seen + 1, stage := d.staged cap w } := by
  rw [Decoder.afterPayload, if_pos h]

theorem Decoder.afterPayload_of_not_last (h : d.seen + 1 ≠ d.total) :
    d.afterPayload cap w = { mode := .payload, total := d.total, seen := d.seen + 1, stage := d.staged cap w } := by
  rw [Decoder.afterPayload, if_neg h]

end Payload

/-- Settles O7: in mode IDLE by the opcode, in mode PAYLOAD by whether the word is the last. -/
theorem decoderTakesOneWordPerEvent : Obligations.DecoderTakesOneWordPerEvent := by
  intro s es w u got
  refine ⟨fun hm => ⟨?initEmpty, ?initHeader, ?setf, ?en, ?dis, ?nop⟩, fun hm => ⟨s.dec.staged s.params.cap w, ?stage,
    ?more, ?last⟩⟩
  case initEmpty => exact fun hop hcount => takeEvent_idle_command (s := u) hm (decodeFirst_of_init_empty hop hcount)
  case initHeader =>
    exact fun hop hcount => takeEvent_idle_initHeader (s := u) hm (decodeFirst_of_init_header hop hcount)
  case setf => exact fun hop => takeEvent_idle_command (s := u) hm (decodeFirst_of_setf hop)
  case en => exact fun hop => takeEvent_idle_command (s := u) hm (decodeFirst_of_en hop)
  case dis => exact fun hop => takeEvent_idle_command (s := u) hm (decodeFirst_of_dis hop)
  case nop =>
    intro hop
    obtain ⟨i, hfirst, hi⟩ := decodeFirst_idle hop
    exact (takeEvent_idle_command (s := u) hm hfirst).trans (exec_noEffect u hi)
  case stage => exact Decoder.staged_getElem?_eq_ite s.params.cap w s.dec
  case more =>
    intro hmore
    rw [← Decoder.afterPayload_of_not_last s.params.cap w s.dec hmore]
    exact takeEvent_awaitsMore (s := u) (State.awaitsMore_iff.2 ⟨hm, hmore⟩)
  case last =>
    intro hlast
    rw [← Decoder.afterPayload_of_last s.params.cap w s.dec hlast]
    exact takeEvent_payload_last (s := u) hm hlast

/-! ## A command delivered -/

/-- Settles O6: the step takes the word, which is the whole command. -/
theorem stepRunsDecodedCommand : Obligations.StepRunsDecodedCommand := by
  intro s es w i hm hw
  exact takeEvent_idle_command (s := { s with inputs := es }) hm hw

/-- Settles O8: the induction over the payload is `runEvents_payload`. -/
theorem deliveredCommandExecutesOnce : Obligations.DeliveredCommandExecutesOnce := by
  intro ws rest i s hw hm hstage
  exact runEvents_decoded hw hm hstage

/-- A command of one word, delivered to an idle decoder, is the command executed. -/
theorem runEvents_events {i : Instr} {s : State} (hwf : i.wellFormed = true) (hone : (encode i).length = 1)
    (hm : s.dec.mode = .idle) : runEvents (Instr.events i) s = exec i s := by
  obtain ⟨w, hw⟩ := List.length_eq_one_iff.1 hone
  have hdecode := decode_encode hwf []
  rw [List.append_nil, hw] at hdecode
  obtain ⟨_, _, heq, ⟨hfirst, -⟩ | ⟨n, hfirst, hn, -⟩⟩ := decode_cases hdecode
  · cases heq
    obtain ⟨t, ht⟩ := exec_next i s
    rw [Instr.events, hw, List.map_singleton, runEvents_cons, takeEvent_idle_command hm hfirst, ht]
    rfl
  · cases heq
    obtain ⟨-, -, hn0⟩ := decodeFirst_header_inv hfirst
    exact absurd (BitVec.eq_of_toNat_eq (Nat.le_zero.1 hn)) hn0

/-! ## INIT with ticks between its words -/

/-- The words `ws`, taken by decoder `d`, are the rest of one INIT with these pairs: all of it, or its payload words
still to come. -/
def Decoder.CompletesInit (cap : Nat) (pairs : List ChannelInit) (d : Decoder) (ws : List Word) : Prop :=
  (d.mode = .idle ∧ d.stage.length = cap ∧ decode ws = .ok (.init pairs, [])) ∨
  ws ≠ [] ∧ ∃ got, d.Received cap got ws ∧ pairs = (got ++ ws).map decodePayload

theorem Decoder.CompletesInit.ne_nil {cap : Nat} {pairs : List ChannelInit} {d : Decoder} {ws : List Word}
    (h : d.CompletesInit cap pairs ws) : ws ≠ [] := by
  rintro rfl
  obtain ⟨-, -, hdecode⟩ | ⟨hne, -⟩ := h
  · cases hdecode
  · exact hne rfl

/-- The next word of an INIT: the last one executes it, any other changes the decoder only. -/
theorem takeEvent_completesInit {s : State} {pairs : List ChannelInit} {w : Word} {ws : List Word}
    (h : s.dec.CompletesInit s.params.cap pairs (w :: ws)) :
    (ws = [] ∧ ∃ d : Decoder, d.mode = .idle ∧ takeEvent (.cmd w) s = exec (.init pairs) { s with dec := d }) ∨
    ∃ d : Decoder, d.CompletesInit s.params.cap pairs ws ∧ takeEvent (.cmd w) s = .next { s with dec := d } := by
  obtain ⟨hm, hstage, hdecode⟩ | ⟨-, got, hgot, rfl⟩ := h
  · obtain ⟨_, _, heq, ⟨hfirst, rfl⟩ | ⟨n, hfirst, hn, hpairs, hrest⟩⟩ := decode_cases hdecode
    · cases heq
      exact .inl ⟨rfl, s.dec, hm, takeEvent_idle_command hm hfirst⟩
    · cases heq
      have hlen : ws.length = n.toNat := le_antisymm (List.drop_eq_nil_iff.1 hrest.symm) hn
      have hne : ws ≠ [] := by
        obtain ⟨-, -, hn0⟩ := decodeFirst_header_inv hfirst
        rw [← List.length_pos_iff, hlen]
        exact Nat.pos_of_ne_zero (BitVec.toNat_ne.1 hn0)
      rw [← hlen, List.take_length] at hpairs
      exact .inr ⟨_, .inr ⟨hne, [], received_after_header hstage hlen, Instr.init.inj hpairs⟩,
        takeEvent_idle_initHeader hm hfirst⟩
  · obtain ⟨rfl, d, hm, -, hlast⟩ | ⟨hne, d, hd, hmore⟩ := takeEvent_payload hgot
    · exact .inl ⟨rfl, d, hm, hlast⟩
    · exact .inr ⟨d, .inr ⟨hne, got ++ [w], hd, by rw [List.append_assoc, List.singleton_append]⟩, hmore⟩

theorem getLast?_ne_of_cons {α : Type} {a b : α} {l : List α} (h : (a :: l).getLast? ≠ some b) :
    l.getLast? ≠ some b := by
  intro hl
  rw [List.getLast?_cons, hl] at h
  exact h rfl

/-- Events that are all ticks, and do not end with one, are none. -/
theorem eq_nil_of_only_ticks {es : List Event} (h : es.filter (fun e => decide (e ≠ .tick)) = [])
    (hlast : es.getLast? ≠ some .tick) : es = [] := by
  by_contra hne
  have hmem := List.getLast_mem hne
  have htick : es.getLast hne = .tick := by simpa using List.filter_eq_nil_iff.1 h _ hmem
  exact hlast (by rw [List.getLast?_eq_some_getLast hne, htick])

/-- The rest of an INIT's words with ticks before and between them: the ticks, then INIT. The induction is over the
events; a word commutes with the ticks after it because ticks do not look at the decoder. -/
theorem runEvents_ticks_between {pairs : List ChannelInit} {es : List Event} {ws : List Word} {s : State}
    (h : s.dec.CompletesInit s.params.cap pairs ws)
    (hes : es.filter (fun e => decide (e ≠ .tick)) = ws.map .cmd) (hlast : es.getLast? ≠ some .tick) :
    ∃ d : Decoder, d.mode = .idle ∧
      runEvents es s = exec (.init pairs) { tickStep^[es.count .tick] s with dec := d } := by
  induction es generalizing ws s with
  | nil => exact absurd (List.map_eq_nil_iff.1 hes.symm) h.ne_nil
  | cons e es ih =>
    rw [runEvents_cons]
    have hlast' := getLast?_ne_of_cons hlast
    cases e with
    | reset =>
      rw [List.filter_cons_of_pos (by decide)] at hes
      cases ws <;> cases hes
    | tick =>
      rw [List.filter_cons_of_neg (by decide)] at hes
      rw [takeEvent_tick, andThen_next, List.count_cons_self]
      exact ih (s := tickStep s) h hes hlast'
    | cmd w =>
      rw [List.filter_cons_of_pos (by simp)] at hes
      rw [List.count_cons_of_ne (by simp)]
      cases ws with
      | nil => cases hes
      | cons v ws =>
        obtain ⟨hwv, hes'⟩ := List.cons.inj hes
        obtain rfl := Event.cmd.inj hwv
        obtain ⟨rfl, d, hm, hexec⟩ | ⟨d, hd, hmore⟩ := takeEvent_completesInit h
        · obtain rfl := eq_nil_of_only_ticks hes' hlast'
          obtain ⟨t, ht⟩ := exec_next (.init pairs) { s with dec := d }
          refine ⟨d, hm, ?_⟩
          rw [hexec, ht]
          exact ht.symm
        · obtain ⟨d', hm, hrun⟩ := ih (s := { s with dec := d }) hd hes' hlast'
          refine ⟨d', hm, ?_⟩
          rw [hmore, andThen_next, hrun, tickStep_iterate_withDec]

/-- Settles O10: the canonical words of an INIT decode to it with none left over, so they are all of its words. -/
theorem initWithTicksBetweenItsWords : Obligations.InitWithTicksBetweenItsWords := by
  intro pairs es s hwf hm hstage hes hlast
  have hdecode : decode (encode (.init pairs)) = .ok (.init pairs, []) := by
    simpa using decode_encode hwf []
  exact runEvents_ticks_between (.inl ⟨hm, hstage, hdecode⟩) hes hlast

end Sys2Proof.Machine
end

