-- ==== Sys2Proof/Proofs/UnreadStage.lean ====
section
/-! PROOFS. Decoder contents that are never read before they are written (10_state.md R34): two runs side by side whose
states differ in nothing but such contents. -/

namespace Sys2Proof.Machine

/-- No command looks at the decoder. -/
theorem exec_withDec (i : Instr) (d : Decoder) (s : State) :
    exec i { s with dec := d } = andThen (exec i s) (fun t => .next { t with dec := d }) := by
  cases i with
  | init pairs =>
    obtain h | h := Bool.eq_false_or_eq_true s.running
    · rw [exec_init_of_running h, exec_init_of_running (s := { s with dec := d }) h, andThen_next]
    · rw [exec_init_of_not_running h, exec_init_of_not_running (s := { s with dec := d }) h]
      rfl
  | setf idx f =>
    have hsel : selected idx { s with dec := d } = selected idx s := rfl
    simp only [exec, execSetf, hsel]
    cases selected idx s with
    | none => rfl
    | some kc =>
      simp only [setFrequency, andThen_next]
      split <;> rfl
  | en idx | dis idx =>
    have hsel : selected idx { s with dec := d } = selected idx s := rfl
    simp only [exec, execEn, execDis, setEnabled, hsel, andThen_next]
    cases selected idx s <;> rfl
  | _ => rfl

/-- What commands keep of the decoder and the parameters. -/
theorem exec_params_dec {i : Instr} {s t : State} (h : exec i s = .next t) : t.params = s.params ∧ t.dec = s.dec := by
  obtain ⟨hp, hd, -⟩ | ⟨hp, hd, -⟩ := exec_keeps h <;> exact ⟨hp, hd⟩

/-- Two decoders that agree on all that can be read before it is written. -/
structure Decoder.SameRead (cap : Nat) (d e : Decoder) : Prop where
  mode : d.mode = e.mode
  length : d.stage.length = e.stage.length
  received : d.mode = .payload → d.total = e.total ∧ d.seen = e.seen ∧
    ∀ j, j < d.seen.toNat → j < cap → d.stage[j]? = e.stage[j]?

theorem Decoder.SameRead.refl (cap : Nat) (d : Decoder) : d.SameRead cap d :=
  ⟨rfl, rfl, fun _ => ⟨rfl, rfl, fun _ _ _ => rfl⟩⟩

theorem State.sameButUnreadStage_iff {s t : State} :
    s.sameButUnreadStage t ↔ ∃ d, s = { t with dec := d } ∧ d.SameRead t.params.cap t.dec := by
  constructor
  · rintro ⟨hp, hr, hc, hch, hi, ho, hmode, hlen, hread⟩
    refine ⟨s.dec, ?_, hmode, hlen, hp ▸ hread⟩
    obtain ⟨p, r, n, cs, d, is, os⟩ := s
    cases hp; cases hr; cases hc; cases hch; cases hi; cases ho
    rfl
  · rintro ⟨d, rfl, hmode, hlen, hread⟩
    exact ⟨rfl, rfl, rfl, rfl, rfl, rfl, hmode, hlen, hread⟩

section Payload
variable {cap : Nat} {d e : Decoder} (w : Word)

/-- After a payload word the staging buffers agree on one entry more. -/
theorem Decoder.SameRead.staged_getElem? (h : d.SameRead cap e) (hm : d.mode = .payload) {j : Nat}
    (hj : j < d.seen.toNat + 1) (hcap : j < cap) : (d.staged cap w)[j]? = (e.staged cap w)[j]? := by
  obtain ⟨-, hlen, hread⟩ := h
  obtain ⟨-, hseen, hstage⟩ := hread hm
  rw [Decoder.staged_getElem?_eq_ite, Decoder.staged_getElem?_eq_ite, ← hseen]
  split
  case isTrue =>
    by_cases hjl : j < d.stage.length
    · rw [List.getElem?_eq_getElem hjl, List.getElem?_eq_getElem (hlen ▸ hjl)]
      rfl
    · rw [List.getElem?_eq_none (by omega), List.getElem?_eq_none (by omega)]
  case isFalse hne => exact hstage j (by omega) hcap

theorem Decoder.SameRead.afterPayload (h : d.SameRead cap e) (hm : d.mode = .payload) :
    (d.afterPayload cap w).SameRead cap (e.afterPayload cap w) := by
  obtain ⟨htotal, hseen, -⟩ := h.received hm
  refine ⟨?mode, ?length, fun _ => ⟨htotal, congrArg (· + 1) hseen, fun j hj hcap => ?stage⟩⟩
  case mode => simp only [Decoder.afterPayload, htotal, hseen]
  case length => exact (Decoder.staged_length cap w d).trans (h.length.trans (Decoder.staged_length cap w e).symm)
  case stage =>
    have hle : (d.seen + 1).toNat ≤ d.seen.toNat + 1 := (BitVec.toNat_add _ _).trans_le (Nat.mod_le _ _)
    exact h.staged_getElem? w hm (Nat.lt_of_lt_of_le hj hle) hcap

/-- INIT is handed entries that have all been written. -/
theorem Decoder.SameRead.handed_afterPayload (h : d.SameRead cap e) (hm : d.mode = .payload)
    (hlast : d.seen + 1 = d.total) : (d.afterPayload cap w).handed cap = (e.afterPayload cap w).handed cap := by
  obtain ⟨htotal, -, -⟩ := h.received hm
  have hle : d.total.toNat ≤ d.seen.toNat + 1 := hlast ▸ (BitVec.toNat_add _ _).trans_le (Nat.mod_le _ _)
  have htake : (d.staged cap w).take (min d.total.toNat cap) = (e.staged cap w).take (min d.total.toNat cap) := by
    refine List.ext_getElem? fun j => ?_
    rw [List.getElem?_take, List.getElem?_take]
    by_cases hj : j < min d.total.toNat cap
    · rw [if_pos hj, if_pos hj]
      exact h.staged_getElem? w hm (by omega) (by omega)
    · rw [if_neg hj, if_neg hj]
  simp only [Decoder.handed, Decoder.afterPayload, ← htotal, htake]

end Payload

/-- One command in both runs. -/
theorem exec_sameRead (i : Instr) {t : State} {d e : Decoder} (h : d.SameRead t.params.cap e) :
    ∃ u d', exec i { t with dec := e } = .next u ∧ exec i { t with dec := d } = .next { u with dec := d' } ∧
      d'.SameRead u.params.cap u.dec := by
  obtain ⟨u, hu⟩ := exec_next i { t with dec := e }
  obtain ⟨hp, hdec⟩ := exec_params_dec hu
  refine ⟨u, d, hu, ?_, by rw [hp, hdec]; exact h⟩
  rw [← andThen_next u (fun t => .next { t with dec := d }), ← hu]
  exact exec_withDec i d { t with dec := e }

/-- One event in both runs. -/
theorem takeEvent_sameRead (e : Event) {t : State} {d : Decoder} (h : d.SameRead t.params.cap t.dec) :
    ∃ u d', takeEvent e t = .next u ∧ takeEvent e { t with dec := d } = .next { u with dec := d' } ∧
      d'.SameRead u.params.cap u.dec := by
  cases e with
  | reset => exact ⟨resetStep t, _, rfl, rfl, .refl _ _⟩
  | tick => exact ⟨tickStep t, d, rfl, rfl, h⟩
  | cmd w =>
    cases hm : d.mode with
    | idle =>
      have hm' : t.dec.mode = .idle := h.mode.symm.trans hm
      cases hw : decodeFirst w with
      | command i =>
        rw [takeEvent_idle_command hm' hw, takeEvent_idle_command (s := { t with dec := d }) hm hw]
        exact exec_sameRead i h
      | initHeader n =>
        exact ⟨_, _, takeEvent_idle_initHeader hm' hw, takeEvent_idle_initHeader (s := { t with dec := d }) hm hw, rfl,
          h.length, fun _ => ⟨rfl, rfl, fun _ hj => absurd hj (Nat.not_lt_zero _)⟩⟩
    | payload =>
      have hm' : t.dec.mode = .payload := h.mode.symm.trans hm
      obtain ⟨htotal, hseen, -⟩ := h.received hm
      have hafter := h.afterPayload w hm
      by_cases hlast : d.seen + 1 = d.total
      · rw [takeEvent_payload_last hm' (by rwa [htotal, hseen] at hlast),
          takeEvent_payload_last (s := { t with dec := d }) hm hlast, ← h.handed_afterPayload w hm hlast]
        exact exec_sameRead _ hafter
      · exact ⟨_, _, takeEvent_awaitsMore (State.awaitsMore_iff.2 ⟨hm', by rwa [htotal, hseen] at hlast⟩),
          takeEvent_awaitsMore (s := { t with dec := d }) (State.awaitsMore_iff.2 ⟨hm, hlast⟩), hafter⟩

/-- One step in both runs. -/
theorem step_sameRead {t : State} {d : Decoder} (h : d.SameRead t.params.cap t.dec) :
    ∃ u d', step t = .next u ∧ step { t with dec := d } = .next { u with dec := d' } ∧
      d'.SameRead u.params.cap u.dec := by
  by_cases hi : t.inputs = []
  · exact ⟨t, d, step_nil t hi, step_nil { t with dec := d } hi, h⟩
  · obtain ⟨e, es, hi⟩ := List.exists_cons_of_ne_nil hi
    rw [step_cons t hi, step_cons { t with dec := d } hi]
    exact takeEvent_sameRead e (t := { t with inputs := es }) h

/-- Settles O11: the relation is kept by each step, so by any number of them. -/
theorem stagingIsNeverReadBeforeWritten : Obligations.StagingIsNeverReadBeforeWritten := by
  intro n
  induction n with
  | zero => exact fun s t h => ⟨s, t, rfl, rfl, h⟩
  | succ n ih =>
    intro s t h
    obtain ⟨d, rfl, hd⟩ := State.sameButUnreadStage_iff.1 h
    obtain ⟨u, d', hu, hv, hd'⟩ := step_sameRead hd
    rw [steps_succ hu, steps_succ hv]
    exact ih _ _ (State.sameButUnreadStage_iff.2 ⟨d', rfl, hd'⟩)

end Sys2Proof.Machine
end

