-- ==== Sys2Proof/Proofs/CommandEffect.lean ====
section
/-! PROOFS. What a command does, said once for every later proof (41_control_commands.md): which channels it writes and
how, what it outputs, and what it leaves alone. Only the first INIT does more. -/

namespace Sys2Proof.Machine

/-! ## Records written -/

theorem Channel.withEn_self (c : Channel) : c.withEn c.en = c := rfl

theorem Channel.withEn_withEn (c : Channel) (a b : Bool) : (c.withEn a).withEn b = c.withEn b := rfl

theorem State.setChannel_setChannel (s : State) (i : Nat) (c d : Channel) :
    (s.setChannel i c).setChannel i d = s.setChannel i d := by
  simp only [State.setChannel, List.set_set]

theorem State.setChannel_eq_self {s : State} {i : Nat} {c : Channel} (hc : s.ch[i]? = some c) :
    s.setChannel i c = s := by
  obtain ⟨hlt, rfl⟩ := List.getElem?_eq_some_iff.1 hc
  simp only [State.setChannel, List.set_getElem_self]

/-! ## The effect of a command on one channel and on the outputs -/

/-- What SETF makes of the channel it selects (R122, R123). -/
def Channel.setf (p : Params) (f : Int) (c : Channel) : Channel :=
  if freqInRange p f then c.retuned p f else c.silenced

/-- What a command other than the first INIT makes of channel j, in a bank with n channels in use. -/
def commandOnChannel (p : Params) (n j : Nat) : Instr → Channel → Channel
  | .setf idx f => if idx = j ∧ j < n then Channel.setf p f else id
  | .en idx => if idx = j ∧ j < n then Channel.withEn true else id
  | .dis idx => if idx = j ∧ j < n then Channel.withEn false else id
  | _ => id

/-- What a command other than the first INIT outputs: SETF's silence branch writes LOW (R122). -/
def commandWrites (s : State) : Instr → List Output
  | .setf idx f =>
    match selected idx s with
    | none => []
    | some (_, c) => if freqInRange s.params f then [] else [.pinWrite c.pin .low]
  | _ => []

theorem freqInRange_eq_false_iff {p : Params} {f : Int} :
    freqInRange p f = false ↔ f < (p.fMin : Int) ∨ (p.fMaster : Int) < 2 * f := by
  rw [Bool.eq_false_iff, ne_eq, freqInRange_iff]
  omega

section Setf
variable (p : Params) (f : Int) (c : Channel)

@[simp] theorem Channel.setf_pin : (c.setf p f).pin = c.pin := by
  unfold Channel.setf
  split <;> rfl

@[simp] theorem Channel.setf_en : (c.setf p f).en = c.en := by
  unfold Channel.setf
  split <;> rfl

theorem Channel.setf_of_inRange {p : Params} {f : Int} (h : freqInRange p f = true) : c.setf p f = c.retuned p f :=
  if_pos h

theorem Channel.setf_of_outOfRange {p : Params} {f : Int} (h : freqInRange p f = false) : c.setf p f = c.silenced :=
  if_neg (by rw [h]; exact Bool.false_ne_true)

end Setf

@[simp] theorem commandOnChannel_pin (p : Params) (n j : Nat) (i : Instr) (c : Channel) :
    (commandOnChannel p n j i c).pin = c.pin := by
  cases i with
  | setf idx f | en idx | dis idx =>
    simp only [commandOnChannel]
    split <;> simp
  | _ => rfl

/-- A channel not in use is written by no command but the first INIT. -/
theorem commandOnChannel_of_unused {p : Params} {n j : Nat} (h : n ≤ j) (i : Instr) :
    commandOnChannel p n j i = id := by
  have hv : ∀ idx : Int, ¬(idx = j ∧ j < n) := fun _ hj => absurd hj.2 (Nat.not_lt.2 h)
  cases i with
  | setf idx f | en idx | dis idx => exact if_neg (hv idx)
  | _ => rfl

theorem mem_commandWrites {s : State} {i : Instr} {o : Output} :
    o ∈ commandWrites s i ↔ ∃ idx f k c, i = .setf idx f ∧ selected idx s = some (k, c) ∧
      freqInRange s.params f = false ∧ o = .pinWrite c.pin .low := by
  constructor
  · intro ho
    cases i with
    | setf idx f =>
      unfold commandWrites at ho
      cases hsel : selected idx s with
      | none => simp [hsel] at ho
      | some kc =>
        cases hf : freqInRange s.params f with
        | true => simp [hsel, hf] at ho
        | false =>
          have hmem : o = .pinWrite kc.2.pin .low := by simpa [hsel, hf] using ho
          exact ⟨idx, f, kc.1, kc.2, rfl, hsel, hf, hmem⟩
    | _ => exact absurd ho (List.not_mem_nil)
  · rintro ⟨idx, f, k, c, rfl, hsel, hf, rfl⟩
    simp [commandWrites, hsel, hf]

/-! ## The effect on the state -/

/-- From `s` to `t` the command `i` has its effect on the channels and the outputs, and no other. -/
structure CommandEffect (i : Instr) (s t : State) : Prop where
  params : t.params = s.params
  running : t.running = s.running
  count : t.count = s.count
  dec : t.dec = s.dec
  length : t.ch.length = s.ch.length
  channel : ∀ j : Nat, t.ch[j]? = (s.ch[j]?).map (commandOnChannel s.params s.count j i)
  outputs : t.outputs = s.outputs ++ commandWrites s i

/-- A command that does nothing has its effect if that effect is nothing. -/
theorem CommandEffect.of_same {i : Instr} {s : State}
    (hch : ∀ j, (s.ch[j]?).map (commandOnChannel s.params s.count j i) = s.ch[j]?) (hout : commandWrites s i = []) :
    CommandEffect i s s :=
  ⟨rfl, rfl, rfl, rfl, rfl, fun j => (hch j).symm, by rw [hout, List.append_nil]⟩

/-- An index that selects nothing names no record of a channel in use. -/
theorem map_ite_of_not_selected {s : State} {idx : Int} (h : selected idx s = none) (g : Channel → Channel) (j : Nat) :
    (s.ch[j]?).map (if idx = j ∧ j < s.count then g else id) = s.ch[j]? := by
  split
  case isTrue hv =>
    obtain ⟨rfl, hj⟩ := hv
    cases hc : s.ch[j]? with
    | none => rfl
    | some c => exact absurd (h.symm.trans (selected_of_valid (i := j) (by omega) (by omega) hc)) (by simp)
  case isFalse => exact Option.map_id_apply

/-- The bank with the selected record written, index by index. -/
theorem set_getElem?_of_selected {s : State} {idx : Int} {k : Nat} {c : Channel} (h : selected idx s = some (k, c))
    (g : Channel → Channel) (j : Nat) :
    (s.ch.set k (g c))[j]? = (s.ch[j]?).map (if idx = j ∧ j < s.count then g else id) := by
  obtain ⟨h0, hlt, rfl, hc⟩ := selected_eq_some.1 h
  by_cases hj : idx.toNat = j
  · have hv : idx = j ∧ j < s.count := by omega
    rw [if_pos hv, ← hj, List.getElem?_set_self (List.getElem?_eq_some_iff.1 hc).1, hc, Option.map_some]
  · have hv : ¬(idx = j ∧ j < s.count) := by omega
    rw [if_neg hv, List.getElem?_set_ne hj, Option.map_id_apply]

theorem setf_effect {idx f : Int} {s t : State} (h : exec (.setf idx f) s = .next t) :
    CommandEffect (.setf idx f) s t := by
  cases hsel : selected idx s with
  | none =>
    rw [exec, execSetf, hsel] at h
    cases h
    exact .of_same (map_ite_of_not_selected hsel _) (by rw [commandWrites, hsel])
  | some kc =>
    obtain ⟨k, c⟩ := kc
    rw [exec_setf_of_selected hsel] at h
    cases h
    have hch := set_getElem?_of_selected hsel (Channel.setf s.params f)
    obtain ⟨hf, h⟩ | ⟨hf, h⟩ := setFrequency_cases k c f s
    · rw [c.setf_of_inRange hf] at hch
      rw [h]
      exact ⟨rfl, rfl, rfl, rfl, List.length_set, hch, by simp [commandWrites, hsel, hf]⟩
    · rw [c.setf_of_outOfRange hf] at hch
      rw [h]
      exact ⟨rfl, rfl, rfl, rfl, List.length_set, hch, by simp [commandWrites, hsel, hf]⟩

/-- EN and DIS at once: `i` is either, with its flag `b`. -/
theorem setEnabled_effect {i : Instr} {idx : Int} {b : Bool} (s : State)
    (hch : ∀ j, commandOnChannel s.params s.count j i = if idx = j ∧ j < s.count then Channel.withEn b else id)
    (hout : commandWrites s i = []) : CommandEffect i s (setEnabled idx b s) := by
  obtain ⟨hsel, h⟩ | ⟨k, c, hsel, h⟩ := setEnabled_cases idx b s <;> rw [h]
  · exact .of_same (fun j => by rw [hch, map_ite_of_not_selected hsel]) hout
  · exact ⟨rfl, rfl, rfl, rfl, List.length_set, fun j => by rw [hch]; exact set_getElem?_of_selected hsel _ j,
      by rw [hout, List.append_nil]; rfl⟩

/-- Every command has its effect, but for the first INIT, which sets up the bank. -/
theorem exec_effect {i : Instr} {s t : State} (h : exec i s = .next t) :
    (∃ pairs, i = .init pairs ∧ s.running = false ∧ t = startBank pairs s) ∨ CommandEffect i s t := by
  cases i with
  | init pairs =>
    obtain hr | hr := Bool.eq_false_or_eq_true s.running
    · rw [exec_init_of_running hr] at h
      cases h
      exact .inr (.of_same (fun _ => Option.map_id_apply) rfl)
    · rw [exec_init_of_not_running hr] at h
      cases h
      exact .inl ⟨pairs, rfl, hr, rfl⟩
  | setf idx f => exact .inr (setf_effect h)
  | en idx | dis idx =>
    cases h
    exact .inr (setEnabled_effect s (fun _ => rfl) rfl)
  | _ =>
    cases h
    exact .inr (.of_same (fun _ => Option.map_id_apply) rfl)

/-! ## Commands with a valid index -/

section Valid
variable {s : State} {i : Int} {c : Channel} (h0 : 0 ≤ i) (hlt : i < (s.count : Int)) (hc : s.ch[i.toNat]? = some c)
include h0 hlt hc

theorem exec_setf_of_outOfRange {f : Int} (hf : f < (s.params.fMin : Int) ∨ (s.params.fMaster : Int) < 2 * f) :
    exec (.setf i f) s = .next ((s.setChannel i.toNat c.silenced).emit [.pinWrite c.pin .low]) := by
  rw [exec_setf_of_selected (selected_of_valid h0 hlt hc), setFrequency, freqInRange_eq_false_iff.2 hf]
  rfl

theorem exec_setf_of_inRange {f : Int} (hmin : (s.params.fMin : Int) ≤ f) (hmax : 2 * f ≤ (s.params.fMaster : Int)) :
    exec (.setf i f) s = .next (s.setChannel i.toNat (c.retuned s.params f)) := by
  rw [exec_setf_of_selected (selected_of_valid h0 hlt hc), setFrequency_of_inRange (freqInRange_iff.2 ⟨hmin, hmax⟩)]

/-- SETF in or out of range, on the channel it selects. -/
theorem exec_setf_channel (f : Int) :
    ∃ t, exec (.setf i f) s = .next t ∧ t.ch[i.toNat]? = some (c.setf s.params f) := by
  obtain ⟨t, ht⟩ := exec_next (.setf i f) s
  have hv : i = ((i.toNat : Nat) : Int) ∧ i.toNat < s.count := by omega
  refine ⟨t, ht, ?_⟩
  rw [(setf_effect ht).channel, hc, commandOnChannel, if_pos hv, Option.map_some]

theorem exec_en_of_valid : exec (.en i) s = .next (s.setChannel i.toNat (c.withEn true)) :=
  congrArg Host.Outcome.next (setEnabled_of_valid true h0 hlt hc)

theorem exec_dis_of_valid : exec (.dis i) s = .next (s.setChannel i.toNat (c.withEn false)) :=
  congrArg Host.Outcome.next (setEnabled_of_valid false h0 hlt hc)

end Valid

/-! ## The effect of an event -/

/-- The tick step on channel j, in use or not (42_tick_step.md R140). -/
theorem tickStep_channel (s : State) (j : Nat) :
    (tickStep s).ch[j]? = (s.ch[j]?).map (if j < s.count then Channel.ticked else id) := by
  rw [tickStep_ch, tickBank_getElem?]
  split
  · rfl
  · exact Option.map_id_apply.symm

theorem Channel.pin_ite_ticked (b : Prop) [Decidable b] (c : Channel) :
    ((if b then Channel.ticked else id) c).pin = c.pin := by
  split
  · exact c.ticked_pin
  · rfl

/-- What one event can do: reset, tick, change the decoder only, set up the bank, or have a command's effect. A command
that is no INIT is the word taken in mode IDLE. -/
theorem takeEvent_effect {e : Event} {s t : State} (h : takeEvent e s = .next t) :
    (e = .reset ∧ t = resetStep s) ∨ (e = .tick ∧ t = tickStep s) ∨
    (∃ d, t = { s with dec := d }) ∨
    (s.running = false ∧ ∃ pairs d, t = startBank pairs { s with dec := d }) ∨
    ∃ w i d, e = .cmd w ∧ CommandEffect i { s with dec := d } t ∧
      ((∃ pairs, i = .init pairs) ∨ s.dec.mode = .idle ∧ decodeFirst w = .command i) := by
  obtain ⟨he, ht⟩ | ⟨he, ht⟩ | ⟨w, rfl, ⟨d, -, ht⟩ | ⟨i, d, -, hidle, hpayload, hexec⟩⟩ := takeEvent_cases h
  · exact .inl ⟨he, ht⟩
  · exact .inr (.inl ⟨he, ht⟩)
  · exact .inr (.inr (.inl ⟨d, ht⟩))
  · obtain ⟨pairs, -, hr, ht⟩ | heffect := exec_effect hexec
    · exact .inr (.inr (.inr (.inl ⟨hr, pairs, d, ht⟩)))
    · refine .inr (.inr (.inr (.inr ⟨w, i, d, rfl, heffect, ?_⟩)))
      cases hm : s.dec.mode with
      | idle => exact .inr ⟨rfl, (hidle hm).2⟩
      | payload => exact .inl (hpayload hm)

end Sys2Proof.Machine
end

