-- ==== Sys2Proof/Proofs/TickStretch.lean ====
section
/-! PROOFS. Stretches of ticks (42_tick_step.md section 3): when a channel's edge events fall, how many there are, and
what is written at them. -/

namespace Sys2Proof.Machine

/-! ## One channel over n ticks -/

/-- The levels a channel writes in n ticks: the new level at each edge event (R144). -/
def Channel.edgeWrites (n : Nat) (c : Channel) : List Level :=
  (List.range n).flatMap fun k => if (Channel.ticked^[k] c).edgeDue then [(Channel.ticked^[k] c).toggledLevel] else []

section OneChannel
variable {c : Channel}

theorem Channel.edgeWrites_succ (n : Nat) :
    c.edgeWrites (n + 1) = c.edgeWrites n ++
      if (Channel.ticked^[n] c).edgeDue then [(Channel.ticked^[n] c).toggledLevel] else [] := by
  rw [Channel.edgeWrites, List.range_succ, List.flatMap_append, List.flatMap_singleton]
  rfl

theorem Channel.ticked_lvl_of_edge (h : c.edgeDue = true) : c.ticked.lvl = c.toggledLevel := by
  rw [c.ticked_of_edge h]

theorem Channel.ticked_cnt_of_edge (h : c.edgeDue = true) : c.ticked.cnt = 0 := by
  rw [c.ticked_of_edge h]

theorem Channel.ticked_lvl_of_no_edge (h : c.edgeDue = false) : c.ticked.lvl = c.lvl := by
  rw [c.ticked_of_no_edge h]

/-- A tick that is no edge event counts on; the counter is below T there, so it does not wrap (R141). -/
theorem Channel.ticked_cnt_of_no_edge (hT : 0 < c.tph.toNat) (h : c.edgeDue = false) :
    c.ticked.cnt.toNat = c.cnt.toNat + 1 := by
  have hbelow : c.cnt.toNat < c.tph.toNat :=
    Nat.lt_of_not_le fun hge => Bool.eq_false_iff.1 h (c.edgeDue_iff.2 ⟨hT, hge⟩)
  have hlt := c.tph.isLt
  rw [c.ticked_of_no_edge h]
  exact (BitVec.toNat_add _ _).trans (Nat.mod_eq_of_lt (by simp; omega))

theorem edgeCount_eq_zero_iff {t c0 n : Nat} : edgeCount t c0 n = 0 ↔ n + c0 ≤ t := by
  rw [edgeCount, Nat.div_eq_zero_iff_lt (Nat.succ_pos t), Nat.lt_succ_iff]

variable (hT : 0 < c.tph.toNat) (hc : c.cnt.toNat ≤ c.tph.toNat)
include hT hc

theorem Channel.edgeWrites_length_eq (n : Nat) : (c.edgeWrites n).length = edgeCount c.tph.toNat c.cnt.toNat n :=
  c.edgeWrites_length hT hc n

theorem Channel.edgeWrites_eq_nil {n : Nat} (hn : n + c.cnt.toNat ≤ c.tph.toNat) : c.edgeWrites n = [] := by
  rw [← List.length_eq_zero_iff, Channel.edgeWrites_length_eq hT hc, edgeCount_eq_zero_iff]
  exact hn

/-- Until the counter reaches T the level stays (R146). -/
theorem Channel.iterate_lvl_eq {n : Nat} (hn : n + c.cnt.toNat ≤ c.tph.toNat) : (Channel.ticked^[n] c).lvl = c.lvl := by
  rw [c.iterate_lvl hT hc, edgeCount_eq_zero_iff.2 hn, if_pos rfl, Level.flips, ite_self]

theorem Channel.iterate_edgeDue_eq_false {n : Nat} (hn : n + c.cnt.toNat < c.tph.toNat) :
    (Channel.ticked^[n] c).edgeDue = false := by
  rw [Bool.eq_false_iff, ne_eq, c.iterate_edgeDue hT hc, Nat.mod_eq_of_lt (Nat.lt_succ_of_lt hn)]
  omega

/-- The counter reaches T after T − c0 ticks. -/
theorem Channel.iterate_edgeDue_first : (Channel.ticked^[c.tph.toNat - c.cnt.toNat] c).edgeDue = true := by
  rw [c.iterate_edgeDue hT hc, Nat.sub_add_cancel hc, Nat.mod_eq_of_lt (Nat.lt_succ_self _)]

theorem Channel.iterate_toggledLevel {n : Nat} (hn : n + c.cnt.toNat ≤ c.tph.toNat) :
    (Channel.ticked^[n] c).toggledLevel = c.toggledLevel := by
  rw [Channel.toggledLevel, Channel.iterate_en, Channel.iterate_lvl_eq hT hc hn, Channel.toggledLevel]

/-- The first edge event is tick number T − c0 + 1: it clears the counter and toggles the level (R141, R146). -/
theorem Channel.iterate_first_edge :
    (Channel.ticked^[c.tph.toNat - c.cnt.toNat + 1] c).cnt = 0 ∧
    (Channel.ticked^[c.tph.toNat - c.cnt.toNat + 1] c).lvl = c.toggledLevel := by
  have hedge := Channel.iterate_edgeDue_first hT hc
  rw [Function.iterate_succ_apply', Channel.ticked_cnt_of_edge hedge, Channel.ticked_lvl_of_edge hedge]
  exact ⟨rfl, Channel.iterate_toggledLevel hT hc (Nat.sub_add_cancel hc).le⟩

theorem Channel.edgeWrites_first : c.edgeWrites (c.tph.toNat - c.cnt.toNat + 1) = [c.toggledLevel] := by
  have hle := (Nat.sub_add_cancel hc).le
  rw [Channel.edgeWrites_succ, Channel.edgeWrites_eq_nil hT hc hle, if_pos (Channel.iterate_edgeDue_first hT hc),
    Channel.iterate_toggledLevel hT hc hle, List.nil_append]

end OneChannel

/-! ## The outputs of n ticks -/

/-- The output events of n ticks, in order. -/
def ticksOutputs (n : Nat) (s : State) : List Output :=
  (List.range n).flatMap fun k => tickBankOutputs s.count (tickStep^[k] s).ch

theorem tickStep_iterate_outputs_eq (n : Nat) (s : State) :
    (tickStep^[n] s).outputs = s.outputs ++ ticksOutputs n s := by
  induction n with
  | zero => exact (List.append_nil _).symm
  | succ n ih =>
    rw [Function.iterate_succ_apply', tickStep_outputs, ih, tickStep_iterate_count, List.append_assoc, ticksOutputs,
      ticksOutputs, List.range_succ, List.flatMap_append, List.flatMap_singleton]

section Bank
variable {s : State} {i : Nat} {c : Channel}

/-- On the pin that channel i alone holds, n ticks write channel i's edge events (R142, R144). -/
theorem writesOn_ticksOutputs (h : s.ownsPin i c) (n : Nat) : writesOn c.pin (ticksOutputs n s) = c.edgeWrites n := by
  obtain ⟨os, hos, hwrites⟩ := tickStep_iterate_outputs h n
  rw [tickStep_iterate_outputs_eq] at hos
  rw [List.append_cancel_left hos, hwrites]
  rfl

variable (hi : i < s.count) (hc : s.ch[i]? = some c)
include hi hc

theorem tickStep_iterate_channel (n : Nat) : (tickStep^[n] s).ch[i]? = some (Channel.ticked^[n] c) := by
  rw [tickStep_iterate_getElem?, if_pos hi, hc, Option.map_some]

/-- A channel in use writes its new level at each of its edge events (R143, R144). -/
theorem pinWrite_mem_ticksOutputs {n k : Nat} (hk : k < n) (hedge : (Channel.ticked^[k] c).edgeDue = true) :
    .pinWrite c.pin (Channel.ticked^[k] c).toggledLevel ∈ ticksOutputs n s := by
  refine List.mem_flatMap.2 ⟨k, List.mem_range.2 hk, ?_⟩
  have hmem := pinWrite_mem_tickBankOutputs (s := tickStep^[k] s) (by rwa [tickStep_iterate_count])
    (tickStep_iterate_channel hi hc k) hedge
  rwa [tickStep_iterate_count, Channel.iterate_pin] at hmem

/-- Tick number k + 1 of a stretch, as its own run: what becomes of channel i, and what is written. -/
theorem runEvents_tick_after (k : Nat) :
    ∃ t u os, runEvents (List.replicate k .tick) s = .next t ∧ t.ch[i]? = some (Channel.ticked^[k] c) ∧
      runEvents [.tick] t = .next u ∧ u.ch[i]? = some (Channel.ticked^[k] c).ticked ∧ u.outputs = t.outputs ++ os ∧
      ((Channel.ticked^[k] c).edgeDue = true → .pinWrite c.pin (Channel.ticked^[k] c).ticked.lvl ∈ os) ∧
      (s.ownsPin i c →
        writesOn c.pin os =
          if (Channel.ticked^[k] c).edgeDue = true then [(Channel.ticked^[k] c).ticked.lvl] else []) := by
  have hik : i < (tickStep^[k] s).count := by rwa [tickStep_iterate_count]
  have hck := tickStep_iterate_channel hi hc k
  refine ⟨tickStep^[k] s, tickStep (tickStep^[k] s), _, runEvents_ticks k s, hck, runEvents_ticks 1 _,
    tickStep_iterate_channel hik hck 1, rfl, fun hedge => ?mem, fun ho => ?writes⟩
  case mem =>
    rw [Channel.ticked_lvl_of_edge hedge]
    simpa using pinWrite_mem_tickBankOutputs hik hck hedge
  case writes =>
    obtain ⟨-, -, hother⟩ := State.ownsPin_iterate ho k
    have hw := writesOn_tickBankOutputs _ _ hik hck hother
    rw [Channel.iterate_pin] at hw
    rw [hw]
    split
    case isTrue hedge => rw [Channel.ticked_lvl_of_edge hedge]
    case isFalse => rfl

variable (hT : 0 < c.tph.toNat) (hle : c.cnt.toNat ≤ c.tph.toNat)
include hT hle

theorem State.edgeAt_iff (k : Nat) : s.edgeAt i k = true ↔ (k + c.cnt.toNat) % (c.tph.toNat + 1) = c.tph.toNat := by
  rw [State.edgeAt_eq hi hc, c.iterate_edgeDue hT hle]

/-- The first edge event of a stretch writes the toggled level. -/
theorem pinWrite_mem_ticksOutputs_first :
    .pinWrite c.pin c.toggledLevel ∈ ticksOutputs (c.tph.toNat - c.cnt.toNat + 1) s := by
  have hmem := pinWrite_mem_ticksOutputs hi hc (Nat.lt_succ_self _) (Channel.iterate_edgeDue_first hT hle)
  rwa [Channel.iterate_toggledLevel hT hle (Nat.sub_add_cancel hle).le] at hmem

/-- n consecutive ticks hold `edgeCount` edge events (R147). -/
theorem countP_edgeAt (n : Nat) : (List.range n).countP (s.edgeAt i) = edgeCount c.tph.toNat c.cnt.toNat n := by
  induction n with
  | zero => exact (edgeCount_eq_zero_iff.2 (by omega)).symm
  | succ n ih =>
    rw [List.range_succ, List.countP_append, ih, edgeCount_succ, List.countP_singleton]
    simp only [State.edgeAt_iff hi hc hT hle]

end Bank

/-! ## A channel disabled for a stretch -/

/-- A channel disabled for n ticks and enabled again (R151). -/
def Channel.paused (n : Nat) (c : Channel) : Channel := (Channel.ticked^[n] (c.withEn false)).withEn true

section Paused
variable (c : Channel)

@[simp] theorem Channel.paused_pin (n : Nat) : (c.paused n).pin = c.pin := (c.withEn false).iterate_pin n

@[simp] theorem Channel.paused_tph (n : Nat) : (c.paused n).tph = c.tph := (c.withEn false).iterate_tph n

@[simp] theorem Channel.paused_en (n : Nat) : (c.paused n).en = true := rfl

variable {c} (hT : 0 < c.tph.toNat) (hc : c.cnt.toNat ≤ c.tph.toNat)
include hT hc

theorem Channel.paused_cnt (n : Nat) : (c.paused n).cnt.toNat = (n + c.cnt.toNat) % (c.tph.toNat + 1) :=
  (c.withEn false).iterate_cnt hT hc n

theorem Channel.paused_lvl (n : Nat) :
    (c.paused n).lvl = if edgeCount c.tph.toNat c.cnt.toNat n = 0 then c.lvl else .low :=
  (c.withEn false).iterate_lvl hT hc n

end Paused

section Set
variable {s : State} {i : Nat} {c : Channel}

theorem tickBank_set {n : Nat} (hi : i < n) (cs : List Channel) (d : Channel) :
    tickBank n (cs.set i d) = (tickBank n cs).set i d.ticked := by
  induction n generalizing i cs with
  | zero => exact absurd hi (Nat.not_lt_zero i)
  | succ n ih =>
    cases cs with
    | nil => rfl
    | cons e cs =>
      cases i with
      | zero => rfl
      | succ i => exact congrArg (e.ticked :: ·) (ih (Nat.lt_of_succ_lt_succ hi) cs)

theorem tickBankOutputs_set (n : Nat) {cs : List Channel} (hc : cs[i]? = some c) {d : Channel}
    (hd : d.tickOutputs = c.tickOutputs) : tickBankOutputs n (cs.set i d) = tickBankOutputs n cs := by
  induction n generalizing i cs with
  | zero => rfl
  | succ n ih =>
    cases cs with
    | nil => rfl
    | cons e cs =>
      cases i with
      | zero =>
        cases Option.some.inj hc
        exact congrArg (· ++ _) hd
      | succ i => exact congrArg (e.tickOutputs ++ ·) (ih hc)

theorem Channel.tickOutputs_of_no_edge (c : Channel) (h : c.edgeDue = false) : c.tickOutputs = [] := by
  rw [Channel.tickOutputs, h]
  rfl

theorem Channel.ticked_withEn (h : c.edgeDue = false) (b : Bool) : (c.withEn b).ticked = c.ticked.withEn b := by
  rw [c.ticked_of_no_edge h, (c.withEn b).ticked_of_no_edge h]
  rfl

variable (hi : i < s.count) (hc : s.ch[i]? = some c) (b : Bool)
include hi hc

/-- A tick that is no edge event of channel i does not look at its flag (R141, R143). -/
theorem tickStep_setChannel_withEn (hne : c.edgeDue = false) :
    tickStep (s.setChannel i (c.withEn b)) = (tickStep s).setChannel i (c.ticked.withEn b) := by
  have hsilent : (c.withEn b).tickOutputs = c.tickOutputs :=
    ((c.withEn b).tickOutputs_of_no_edge hne).trans (c.tickOutputs_of_no_edge hne).symm
  simp only [tickStep, State.setChannel, tickBank_set hi, tickBankOutputs_set _ hc hsilent, c.ticked_withEn hne]

theorem tickStep_iterate_setChannel_withEn {n : Nat} (hne : ∀ k < n, (Channel.ticked^[k] c).edgeDue = false) :
    tickStep^[n] (s.setChannel i (c.withEn b)) = (tickStep^[n] s).setChannel i ((Channel.ticked^[n] c).withEn b) := by
  induction n with
  | zero => rfl
  | succ n ih =>
    rw [Function.iterate_succ_apply', ih fun k hk => hne k (Nat.lt_succ_of_lt hk), Function.iterate_succ_apply',
      Function.iterate_succ_apply']
    exact tickStep_setChannel_withEn (by rwa [tickStep_iterate_count]) (tickStep_iterate_channel hi hc n) b
      (hne n (Nat.lt_succ_self n))

/-- A disabling within a half-period leaves no trace once the channel is enabled again (R151). -/
theorem setChannel_paused_of_no_edge (hen : c.en = true) {n : Nat}
    (hne : ∀ k < n, (Channel.ticked^[k] c).edgeDue = false) :
    (tickStep^[n] (s.setChannel i (c.withEn false))).setChannel i (c.paused n) = tickStep^[n] s := by
  have hoff := tickStep_iterate_setChannel_withEn hi hc false hne
  have hch : Channel.ticked^[n] (c.withEn false) = (Channel.ticked^[n] c).withEn false := by
    have hl := tickStep_iterate_channel (s := s.setChannel i (c.withEn false)) hi (State.setChannel_self hc) n
    rw [hoff, State.setChannel_self (tickStep_iterate_channel hi hc n)] at hl
    exact (Option.some.inj hl).symm
  have hon : (Channel.ticked^[n] c).withEn true = Channel.ticked^[n] c := by
    rw [← hen, ← Channel.iterate_en c n, Channel.withEn_self]
  rw [hoff, State.setChannel_setChannel, Channel.paused, hch, Channel.withEn_withEn, hon,
    State.setChannel_eq_self (tickStep_iterate_channel hi hc n)]

end Set

end Sys2Proof.Machine
end

