-- ==== Sys2Proof/Proofs/Waveforms.lean ====
section
/-! PROOFS. The waveform laws (42_tick_step.md section 3) and the hazards that follow from them
(70_reset_and_hazards.md section 4), from the stretches of ticks of TickStretch. -/

namespace Sys2Proof.Machine

/-! ## Counting and spacing -/

/-- Settles O38: the counter runs modulo T + 1, and each of its wraps is an edge event and a write. -/
theorem edgeCountIsFloorByTPlusOne : Obligations.EdgeCountIsFloorByTPlusOne := by
  intro s i n c hi hc hT hle
  refine ⟨countP_edgeAt hi hc hT hle n, _, _, ticksOutputs n s, runEvents_ticks n s, tickStep_iterate_channel hi hc n,
    tickStep_iterate_outputs_eq n s, c.iterate_cnt hT hle n, fun hen => ?level, c.iterate_pin n, c.iterate_tph n,
    c.iterate_en n, fun ho => ?writes⟩
  case level =>
    rw [c.iterate_lvl hT hle, if_pos hen]
    rfl
  case writes =>
    rw [writesOn_ticksOutputs ho, Channel.edgeWrites_length_eq hT hle]
    rfl

/-- Counting from c0, T is reached modulo T + 1 at T − c0 and every T + 1 after. -/
theorem mod_eq_pred_iff {t c0 j : Nat} (hle : c0 ≤ t) :
    (j + c0) % (t + 1) = t ↔ ∃ m, j + 1 = t - c0 + 1 + m * (t + 1) := by
  constructor
  · intro h
    have hdiv := Nat.mod_add_div (j + c0) (t + 1)
    refine ⟨(j + c0) / (t + 1), ?_⟩
    rw [Nat.mul_comm]
    omega
  · rintro ⟨m, hm⟩
    have hj : j + c0 = t + m * (t + 1) := by omega
    rw [hj, Nat.add_mul_mod_self_right, Nat.mod_eq_of_lt (Nat.lt_succ_self t)]

/-- Settles O39: the counter's residue says which ticks are edge events; the tick itself says what is written. -/
theorem edgeSpacingIsTPlusOne : Obligations.EdgeSpacingIsTPlusOne := by
  intro s i k c hi hc hT hle hk
  obtain ⟨j, rfl⟩ := Nat.exists_eq_add_of_le' hk
  rw [Nat.add_sub_cancel]
  obtain ⟨t, u, os, hrun, -, htick, hu, hout, hmem, hwrites⟩ := runEvents_tick_after hi hc j
  refine ⟨(State.edgeAt_iff hi hc hT hle j).trans (mod_eq_pred_iff hle), t, u, _, os, hrun, htick, hu, hout, ?_⟩
  rw [State.edgeAt_eq hi hc]
  exact ⟨fun hedge => ⟨Channel.ticked_cnt_of_edge hedge, hmem hedge⟩, hwrites⟩

/-- A level flipped n times is the level or the other one, by the parity of n. -/
theorem Level.flips_eq_ite (n : Nat) (l : Level) : Level.flips n l = if n % 2 = 0 then l else l.flip := by
  induction n with
  | zero => rfl
  | succ n ih =>
    rw [Level.flips, ih]
    obtain h | h := Nat.mod_two_eq_zero_or_one n
    · rw [if_pos h, if_neg (by omega)]
    · rw [if_neg (by omega), if_pos (by omega), Level.flip_flip]

/-- Settles O40: from a counter of 0 the number of flips after n ticks is n div (T + 1), even in the first half of each
period of 2·(T + 1). -/
theorem enabledChannelMakesASquareWave : Obligations.EnabledChannelMakesASquareWave := by
  intro s i n c hi hc hT hcnt hen
  refine ⟨_, _, runEvents_ticks n s, tickStep_iterate_channel hi hc n, ?_⟩
  have hzero : c.cnt.toNat = 0 := congrArg BitVec.toNat hcnt
  have hhalf : n / (c.tph.toNat + 1) % 2 = 0 ↔ n % (2 * (c.tph.toNat + 1)) < c.tph.toNat + 1 := by
    rw [← Nat.mod_mul_right_div_self, Nat.div_eq_zero_iff_lt (Nat.succ_pos _), Nat.mul_comm]
  rw [c.iterate_lvl hT (by omega), if_pos hen, edgeCount, hzero, Nat.add_zero, Level.flips_eq_ite]
  simp only [hhalf]

/-! ## Disabled and silent channels -/

/-- Settles O41: the edge grid does not depend on the flag; a disabled channel's toggle is LOW. -/
theorem disabledChannelKeepsTheEdgeGridWritingLow : Obligations.DisabledChannelKeepsTheEdgeGridWritingLow := by
  intro s i k c hi hc hT hle hen
  obtain ⟨t, u, os, hrun, ht, htick, hu, hout, hmem, hwrites⟩ := runEvents_tick_after hi hc k
  refine ⟨?grid, t, _, u, _, os, hrun, ht, htick, hu, hout, ?_⟩
  case grid =>
    have hon := State.edgeAt_iff (s := s.setChannel i { c with en := true }) hi (State.setChannel_self hc) hT hle k
    rw [Bool.eq_iff_iff, State.edgeAt_iff hi hc hT hle k, hon]
  rw [State.edgeAt_eq hi hc]
  have hlow : (Channel.ticked^[k] c).edgeDue = true → (Channel.ticked^[k] c).ticked.lvl = .low := by
    intro hedge
    rw [Channel.ticked_lvl_of_edge hedge, Channel.toggledLevel, Channel.iterate_en, hen]
    rfl
  refine ⟨fun hedge => ⟨Channel.ticked_cnt_of_edge hedge, hlow hedge, hlow hedge ▸ hmem hedge⟩,
    fun hnone => ⟨Channel.ticked_cnt_of_no_edge (by rwa [c.iterate_tph]) hnone, Channel.ticked_lvl_of_no_edge hnone⟩,
    fun ho => ?_⟩
  rw [hwrites ho]
  split
  case isTrue hedge => rw [hlow hedge]
  case isFalse => rfl

/-- A channel with tick count 0 never writes (R152). -/
theorem Channel.edgeWrites_of_silent {c : Channel} (h : c.tph = 0) (n : Nat) : c.edgeWrites n = [] := by
  refine List.flatMap_eq_nil_iff.2 fun k _ => if_neg ?_
  rw [Channel.edgeDue_iff, Channel.iterate_tph, h]
  exact fun hdue => absurd hdue.1 (Nat.lt_irrefl 0)

/-- Settles O43: of a silent channel only the counter moves. -/
theorem silentChannelIsNeverTouchedByTicks : Obligations.SilentChannelIsNeverTouchedByTicks := by
  intro s i n c hi hc hsilent
  refine ⟨?edge, _, _, ticksOutputs n s, runEvents_ticks n s, tickStep_iterate_channel hi hc n,
    tickStep_iterate_outputs_eq n s, ?lvl, c.iterate_en n, (c.iterate_tph n).trans hsilent, ?cnt, fun ho => ?writes⟩
  case edge =>
    rw [State.edgeAt_eq hi hc, Bool.eq_false_iff, ne_eq, Channel.edgeDue_iff, Channel.iterate_tph, hsilent]
    exact fun hdue => absurd hdue.1 (Nat.lt_irrefl 0)
  case lvl => rw [c.iterate_silent hsilent]
  case cnt =>
    rw [c.iterate_silent hsilent, BitVec.toNat_add, BitVec.toNat_ofNat]
    exact Nat.add_mod_mod _ _ _
  case writes => rw [writesOn_ticksOutputs ho, Channel.edgeWrites_of_silent hsilent]

/-! ## Commands between ticks -/

section Commands
variable {s : State} {i : Nat} {c : Channel} (hm : s.dec.mode = .idle) (hi : i < s.count) (h127 : i ≤ 127)
  (hc : s.ch[i]? = some c)

theorem idxEncodable_natCast {i : Nat} (h : i ≤ 127) : idxEncodable i = true := by
  rw [idxEncodable, decide_eq_true_iff]
  omega

include hm hi h127 hc

theorem runEvents_en : runEvents (Instr.events (.en i)) s = .next (s.setChannel i (c.withEn true)) :=
  (runEvents_events (i := .en i) (idxEncodable_natCast h127) rfl hm).trans
    (exec_en_of_valid (i := i) (by omega) (by omega) hc)

theorem runEvents_dis : runEvents (Instr.events (.dis i)) s = .next (s.setChannel i (c.withEn false)) :=
  (runEvents_events (i := .dis i) (idxEncodable_natCast h127) rfl hm).trans
    (exec_dis_of_valid (i := i) (by omega) (by omega) hc)

theorem runEvents_dis_ticks (k : Nat) :
    runEvents (Instr.events (.dis i) ++ List.replicate k .tick) s =
      .next (tickStep^[k] (s.setChannel i (c.withEn false))) := by
  rw [runEvents_append, runEvents_dis hm hi h127 hc, andThen_next, runEvents_ticks]

theorem runEvents_dis_ticks_en (k : Nat) :
    runEvents (Instr.events (.dis i) ++ List.replicate k .tick ++ Instr.events (.en i)) s =
      .next ((tickStep^[k] (s.setChannel i (c.withEn false))).setChannel i (c.paused k)) := by
  have hi' : i < (tickStep^[k] (s.setChannel i (c.withEn false))).count := by
    rwa [tickStep_iterate_count, State.setChannel_count]
  have hm' : (tickStep^[k] (s.setChannel i (c.withEn false))).dec.mode = .idle := by
    rwa [tickStep_iterate_dec, State.setChannel_dec]
  rw [runEvents_append, runEvents_dis_ticks hm hi h127 hc, andThen_next]
  exact runEvents_en hm' hi' h127
    (tickStep_iterate_channel (s := s.setChannel i (c.withEn false)) hi (State.setChannel_self hc) k)

end Commands

/-- Settles O42: DIS and EN leave the counter's grid; the level over the ticks between is that of a disabled channel,
and the first edge event after EN that of an enabled one. -/
theorem disableThenEnableKeepsThePhase : Obligations.DisableThenEnableKeepsThePhase := by
  intro s i d c hm hi h127 hc hT hle
  have hoff : (s.setChannel i (c.withEn false)).ch[i]? = some (c.withEn false) := State.setChannel_self hc
  have hcnt := Channel.paused_cnt hT hle d
  have hlvl := Channel.paused_lvl hT hle d
  have htph := c.paused_tph d
  have hTe : 0 < (c.paused d).tph.toNat := by rwa [htph]
  have hle' : (c.paused d).cnt.toNat ≤ (c.paused d).tph.toNat := by
    rw [hcnt, htph]
    exact Nat.le_of_lt_succ (Nat.mod_lt _ (Nat.succ_pos _))
  have he := State.setChannel_self (d := c.paused d)
    (tickStep_iterate_channel (s := s.setChannel i (c.withEn false)) hi hoff d)
  have hi' : i < ((tickStep^[d] (s.setChannel i (c.withEn false))).setChannel i (c.paused d)).count := by
    rwa [State.setChannel_count, tickStep_iterate_count, State.setChannel_count]
  have hfirst := Channel.iterate_first_edge hTe hle'
  have hwrite := pinWrite_mem_ticksOutputs_first hi' he hTe hle'
  rw [htph] at hfirst
  rw [htph, c.paused_pin] at hwrite
  refine ⟨_, _, _, _, runEvents_dis_ticks_en hm hi h127 hc d, he, c.paused_en d, htph, c.paused_pin d, hcnt,
    fun hnone => ⟨hlvl.trans (if_pos hnone), fun hen => ?same⟩, fun hsome => hlvl.trans (if_neg hsome),
    runEvents_ticks _ _, tickStep_iterate_channel hi' he _, hfirst.1, hfirst.2, _, tickStep_iterate_outputs_eq _ _,
    hwrite⟩
  case same =>
    have hno : ∀ k < d, (Channel.ticked^[k] c).edgeDue = false := by
      intro k hk
      have hd := edgeCount_eq_zero_iff.1 hnone
      exact Channel.iterate_edgeDue_eq_false hT hle (by omega)
    rw [runEvents_ticks]
    exact congrArg Host.Outcome.next (setChannel_paused_of_no_edge hi hc hen hno).symm

/-- Settles O44: DIS only clears the flag, so the counter goes on to its next edge event, which forces LOW. -/
theorem disableTakesEffectAtTheNextEdge : Obligations.DisableTakesEffectAtTheNextEdge := by
  intro s i c hm hi h127 hc hT hle
  let off := c.withEn false
  have hoff : (s.setChannel i off).ch[i]? = some off := State.setChannel_self hc
  have hrun := runEvents_dis_ticks hm hi h127 hc
  have hch := tickStep_iterate_channel (s := s.setChannel i off) hi hoff
  have hout := fun k => tickStep_iterate_outputs_eq k (s.setChannel i off)
  have hwrites := fun (ho : s.ownsPin i c) => writesOn_ticksOutputs (State.ownsPin_setChannel (d := off) ho rfl)
  refine ⟨fun k hk => ?before, ?edge⟩
  case before =>
    have hk' : k + off.cnt.toNat ≤ off.tph.toNat := by
      show k + c.cnt.toNat ≤ c.tph.toNat
      omega
    exact ⟨_, _, _, hrun k, hch k, hout k, off.iterate_lvl_eq hT hle hk',
      fun ho => (hwrites ho k).trans (Channel.edgeWrites_eq_nil (c := off) hT hle hk')⟩
  case edge =>
    obtain ⟨hcnt, hlvl⟩ := Channel.iterate_first_edge (c := off) hT hle
    exact ⟨_, _, _, hrun _, hch _, hout _, hlvl, hcnt,
      pinWrite_mem_ticksOutputs_first (s := s.setChannel i off) hi hoff hT hle,
      fun ho => (hwrites ho _).trans (Channel.edgeWrites_first (c := off) hT hle)⟩

/-! ## SETF re-sent -/

theorem freqEncodable_of_inRange {p : Params} {f : Int} (hmin : (p.fMin : Int) ≤ f)
    (hmax : 2 * f ≤ (p.fMaster : Int)) : freqEncodable f = true := by
  have h := p.fMasterRange.2
  rw [freqEncodable, decide_eq_true_iff]
  omega

/-- One round: SETF in range and at most T ticks leave the channel in use, on its pin, at its level and silent. -/
theorem runEvents_setf_ticks {s : State} {i k : Nat} {f : Int} {c : Channel} (hm : s.dec.mode = .idle)
    (hi : i < s.count) (h127 : i ≤ 127) (hc : s.ch[i]? = some c) (hmin : (s.params.fMin : Int) ≤ f)
    (hmax : 2 * f ≤ (s.params.fMaster : Int)) (hk : k ≤ ticksFor f s.params.fMaster) :
    ∃ t d os, runEvents (Instr.events (.setf i f) ++ List.replicate k .tick) s = .next t ∧ t.ch[i]? = some d ∧
      t.params = s.params ∧ t.dec = s.dec ∧ t.count = s.count ∧ d.lvl = c.lvl ∧ d.pin = c.pin ∧
      t.outputs = s.outputs ++ os ∧ (s.ownsPin i c → t.ownsPin i d ∧ writesOn c.pin os = []) := by
  let tuned := c.retuned s.params f
  have hpos : 0 < f := by
    have := s.params.fMinRange.1
    omega
  have htph : tuned.tph.toNat = ticksFor f s.params.fMaster := ticksFor_toNat s.params hpos
  have hT : 0 < tuned.tph.toNat := htph ▸ ticksFor_pos hpos s.params.fMasterRange.1
  have hle : tuned.cnt.toNat ≤ tuned.tph.toNat := Nat.zero_le _
  have hk' : k + tuned.cnt.toNat ≤ tuned.tph.toNat := htph ▸ hk
  have hexec : exec (.setf i f) s = .next (s.setChannel i tuned) :=
    exec_setf_of_inRange (i := i) (by omega) (by omega) hc hmin hmax
  have hword := runEvents_events (i := .setf i f)
    (Bool.and_eq_true_iff.2 ⟨idxEncodable_natCast h127, freqEncodable_of_inRange hmin hmax⟩) rfl hm
  refine ⟨tickStep^[k] (s.setChannel i tuned), Channel.ticked^[k] tuned, ticksOutputs k (s.setChannel i tuned), ?run,
    tickStep_iterate_channel (s := s.setChannel i tuned) hi (State.setChannel_self hc) k, by simp, by simp, by simp,
    tuned.iterate_lvl_eq hT hle hk', tuned.iterate_pin k, tickStep_iterate_outputs_eq k _, fun ho => ?owns⟩
  case run => rw [runEvents_append, hword, hexec, andThen_next, runEvents_ticks]
  case owns =>
    have ho' := State.ownsPin_setChannel (d := tuned) ho rfl
    exact ⟨State.ownsPin_iterate ho' k,
      (writesOn_ticksOutputs ho' k).trans (Channel.edgeWrites_eq_nil (c := tuned) hT hle hk')⟩

/-- Settles O45: by induction on the rounds. -/
theorem frequentSetfPreventsToggling : Obligations.FrequentSetfPreventsToggling := by
  intro s i k m f
  induction m generalizing s with
  | zero =>
    intro c _ _ _ hc _ _ _
    exact ⟨s, c, [], rfl, hc, (List.append_nil _).symm, rfl, fun _ => rfl⟩
  | succ m ih =>
    intro c hm hi h127 hc hmin hmax hk
    obtain ⟨t, d, os, hrun, hd, hp, hdec, hcount, hlvl, hpin, hout, howns⟩ :=
      runEvents_setf_ticks hm hi h127 hc hmin hmax hk
    obtain ⟨u, e, qs, hrest, he, hout', hlvl', hwrites⟩ := ih t d (hdec ▸ hm) (hcount ▸ hi) h127 hd (hp ▸ hmin)
      (hp ▸ hmax) (hp ▸ hk)
    refine ⟨u, e, os ++ qs, ?_, he, by rw [hout', hout, List.append_assoc], hlvl'.trans hlvl, fun ho => ?_⟩
    · rw [List.replicate_succ, List.flatten_cons, runEvents_append, hrun, andThen_next, hrest]
    · obtain ⟨ho', hfirst⟩ := howns ho
      rw [writesOn_append, hfirst, ← hpin, hwrites ho', List.append_nil]

end Sys2Proof.Machine
end

