-- ==== Sys2Proof/Proofs/ChannelIndependence.lean ====
section
/-! PROOFS. Channels are independent (42_tick_step.md R142): what an event leaves of channel i depends on channel i and
on the state outside the bank. -/

namespace Sys2Proof.Machine

/-- Two blocks that agree on channel i and on all outside the bank. -/
structure State.AgreeOn (i : Nat) (s t : State) : Prop where
  params : s.params = t.params
  running : s.running = t.running
  count : s.count = t.count
  dec : s.dec = t.dec
  channel : s.ch[i]? = t.ch[i]?

section AgreeOn
variable {i : Nat} {s t u v : State}

theorem State.AgreeOn.of_effect (h : s.AgreeOn i t) {c : Instr} (hu : CommandEffect c s u) (hv : CommandEffect c t v) :
    u.AgreeOn i v := by
  refine ⟨by rw [hu.params, hv.params, h.params], by rw [hu.running, hv.running, h.running],
    by rw [hu.count, hv.count, h.count], by rw [hu.dec, hv.dec, h.dec], ?_⟩
  rw [hu.channel, hv.channel, h.params, h.count, h.channel]

theorem State.AgreeOn.of_startBank (h : s.AgreeOn i t) (pairs : List ChannelInit) :
    (startBank pairs s).AgreeOn i (startBank pairs t) := by
  refine ⟨h.params, rfl, by rw [startBank_count, startBank_count, h.params], h.dec, ?_⟩
  rw [startBank_ch, startBank_ch, initBank_getElem?, initBank_getElem?, h.params, h.channel]

theorem State.AgreeOn.of_exec (h : s.AgreeOn i t) {c : Instr} (hu : exec c s = .next u) (hv : exec c t = .next v) :
    u.AgreeOn i v := by
  obtain ⟨pairs, rfl, hr, rfl⟩ | hu' := exec_effect hu
  · rw [exec_init_of_not_running (h.running ▸ hr)] at hv
    cases hv
    exact h.of_startBank pairs
  · obtain ⟨pairs, rfl, hr, rfl⟩ | hv' := exec_effect hv
    · rw [exec_init_of_not_running (h.running.trans hr)] at hu
      cases hu
      exact h.of_startBank pairs
    · exact h.of_effect hu' hv'

/-- A decoder is put in both. -/
theorem State.AgreeOn.withDec (h : s.AgreeOn i t) (d : Decoder) :
    State.AgreeOn i { s with dec := d } { t with dec := d } :=
  ⟨h.params, h.running, h.count, rfl, h.channel⟩

theorem State.AgreeOn.of_takeEvent (h : s.AgreeOn i t) {e : Event} (hu : takeEvent e s = .next u)
    (hv : takeEvent e t = .next v) : u.AgreeOn i v := by
  cases e with
  | reset =>
    cases hu
    cases hv
    refine ⟨h.params, rfl, rfl, ?_, ?_⟩
    · rw [resetStep_dec, resetStep_dec, h.params]
    · rw [resetStep_ch, resetStep_ch, h.params]
  | tick =>
    cases hu
    cases hv
    refine ⟨h.params, h.running, h.count, h.dec, ?_⟩
    rw [tickStep_ch, tickStep_ch, tickBank_getElem?, tickBank_getElem?, h.count, h.channel]
  | cmd w =>
    cases hm : s.dec.mode with
    | idle =>
      have hm' : t.dec.mode = .idle := h.dec ▸ hm
      cases hw : decodeFirst w with
      | command c =>
        rw [takeEvent_idle_command hm hw] at hu
        rw [takeEvent_idle_command hm' hw] at hv
        exact h.of_exec hu hv
      | initHeader n =>
        rw [takeEvent_idle_initHeader hm hw] at hu
        rw [takeEvent_idle_initHeader hm' hw, ← h.dec] at hv
        cases hu
        cases hv
        exact h.withDec _
    | payload =>
      have hm' : t.dec.mode = .payload := h.dec ▸ hm
      have hcap : s.params.cap = t.params.cap := congrArg Params.cap h.params
      have hafter : s.dec.afterPayload s.params.cap w = t.dec.afterPayload t.params.cap w := by rw [h.dec, hcap]
      by_cases hl : s.dec.seen + 1 = s.dec.total
      · rw [takeEvent_payload_last hm hl, hafter, hcap] at hu
        rw [takeEvent_payload_last hm' (h.dec ▸ hl)] at hv
        exact (h.withDec _).of_exec hu hv
      · rw [takeEvent_awaitsMore (State.awaitsMore_iff.2 ⟨hm, hl⟩), hafter] at hu
        rw [takeEvent_awaitsMore (State.awaitsMore_iff.2 ⟨hm', h.dec ▸ hl⟩)] at hv
        cases hu
        cases hv
        exact h.withDec _

end AgreeOn

/-- Settles O37: agreement is kept by each event, so by induction over the events. -/
theorem otherChannelsDoNotMatter : Obligations.OtherChannelsDoNotMatter := by
  intro i s t es hp hr hn hd hc
  have h : s.AgreeOn i t := ⟨hp, hr, hn, hd, hc⟩
  clear hp hr hn hd hc
  induction es generalizing s t with
  | nil => exact ⟨s, t, rfl, rfl, h.channel, h.running, h.count, h.dec⟩
  | cons e es ih =>
    obtain ⟨u, hu⟩ := takeEvent_next e s
    obtain ⟨v, hv⟩ := takeEvent_next e t
    rw [runEvents_cons, runEvents_cons, hu, hv]
    exact ih u v (h.of_takeEvent hu hv)

end Sys2Proof.Machine
end

