-- ==== Sys2Proof/Proofs/OutputEvents.lean ====
section
/-! PROOFS. What is output (20_memory.md R54 to R57; 42_tick_step.md R144, R145): a tick and a command write pins, the
first INIT starts the clock, nothing else outputs anything. -/

namespace Sys2Proof.Machine

/-! ## Pin writes -/

theorem isPinWrite_of_mem_tickOutputs {c : Channel} {o : Output} (h : o ∈ c.tickOutputs) : o.isPinWrite = true := by
  obtain ⟨-, rfl⟩ := Channel.mem_tickOutputs.1 h
  rfl

/-- A pin write of a tick is that of a channel in use. -/
theorem mem_tickBankOutputs {n : Nat} {cs : List Channel} {o : Output} :
    o ∈ tickBankOutputs n cs ↔ ∃ (j : Nat) (c : Channel), j < n ∧ cs[j]? = some c ∧ o ∈ c.tickOutputs := by
  rw [tickBankOutputs_eq, List.mem_flatMap]
  constructor
  · rintro ⟨c, hc, ho⟩
    obtain ⟨j, hj⟩ := List.mem_iff_getElem?.1 hc
    rw [List.getElem?_take] at hj
    split at hj
    case isTrue hlt => exact ⟨j, c, hlt, hj, ho⟩
    case isFalse => cases hj
  · rintro ⟨j, c, hj, hc, ho⟩
    exact ⟨c, List.mem_iff_getElem?.2 ⟨j, by rw [List.getElem?_take, if_pos hj, hc]⟩, ho⟩

theorem isPinWrite_of_mem_tickBankOutputs {n : Nat} {cs : List Channel} :
    ∀ o ∈ tickBankOutputs n cs, o.isPinWrite = true := by
  intro o ho
  obtain ⟨j, c, -, -, ho⟩ := mem_tickBankOutputs.1 ho
  exact isPinWrite_of_mem_tickOutputs ho

theorem isPinWrite_of_mem_commandWrites {s : State} {i : Instr} : ∀ o ∈ commandWrites s i, o.isPinWrite = true := by
  intro o ho
  obtain ⟨_, _, _, _, -, -, -, rfl⟩ := mem_commandWrites.1 ho
  rfl

theorem tickBankOutputs_length_le (n : Nat) (cs : List Channel) : (tickBankOutputs n cs).length ≤ n := by
  induction n generalizing cs with
  | zero => exact Nat.le_refl 0
  | succ n ih =>
    cases cs with
    | nil => exact Nat.zero_le _
    | cons c cs =>
      have hc := c.tickOutputs_length_le
      have hcs := ih cs
      rw [tickBankOutputs, List.length_append]
      omega

/-- Settles O36: at most one write for each channel in use. -/
theorem tickIssuesAtMostCountPinWrites : Obligations.TickIssuesAtMostCountPinWrites := by
  intro s t es h
  cases h
  exact ⟨_, rfl, tickBankOutputs_length_le s.count s.ch, isPinWrite_of_mem_tickBankOutputs⟩

/-- Settles O47: the outputs of a step are those of its event, and INIT's output is no pin write. -/
theorem onlyEdgesAndSilencingWritePins : Obligations.OnlyEdgesAndSilencingWritePins := by
  intro s t e es h
  obtain ⟨rfl, rfl⟩ | ⟨rfl, rfl⟩ | ⟨d, rfl⟩ | ⟨-, pairs, d, rfl⟩ | ⟨w, i, d, rfl, heffect, hword⟩ :=
    takeEvent_effect (s := { s with inputs := es }) h
  case inl => exact ⟨[], (List.append_nil _).symm, fun _ _ hmem => absurd hmem List.not_mem_nil⟩
  case inr.inl =>
    refine ⟨_, rfl, fun p l hmem => .inl ⟨rfl, ?_⟩⟩
    obtain ⟨j, c, hj, hc, ho⟩ := mem_tickBankOutputs.1 hmem
    obtain ⟨hedge, heq⟩ := Channel.mem_tickOutputs.1 ho
    obtain ⟨rfl, rfl⟩ := Output.pinWrite.inj heq
    obtain ⟨hT, hle⟩ := c.edgeDue_iff.1 hedge
    exact ⟨j, c, hj, hc, hT, hle, rfl, rfl⟩
  case inr.inr.inl => exact ⟨[], (List.append_nil _).symm, fun _ _ hmem => absurd hmem List.not_mem_nil⟩
  case inr.inr.inr.inl => exact ⟨_, rfl, fun _ _ hmem => by simp at hmem⟩
  case inr.inr.inr.inr =>
    refine ⟨_, heffect.outputs, fun p l hmem => .inr ?_⟩
    obtain ⟨idx, f, k, c, rfl, hsel, hf, heq⟩ := mem_commandWrites.1 hmem
    obtain ⟨rfl, rfl⟩ := Output.pinWrite.inj heq
    obtain ⟨h0, hlt, -, hc⟩ := selected_eq_some.1 hsel
    obtain ⟨pairs, hinit⟩ | ⟨hm, hfirst⟩ := hword
    · cases hinit
    · exact ⟨w, idx, f, c, rfl, hm, hfirst, h0, hlt, hc, freqInRange_eq_false_iff.1 hf, rfl, rfl⟩

/-! ## The pin latch -/

theorem pinLatch_append (os qs : List Output) (p : Pin) :
    pinLatch (os ++ qs) p = qs.foldl (latchStep p) (pinLatch os p) := List.foldl_append

/-- Settles O52: TimerStart, INIT's one output, is no write; SETF with frequency 0 writes LOW to one pin. -/
theorem initLeavesThePinLatchAlone : Obligations.InitLeavesThePinLatchAlone := by
  refine ⟨fun p q => rfl, ?init, ?setf⟩
  case init =>
    intro s t pairs q h
    obtain ⟨_, -, -, rfl⟩ | heffect := exec_effect h
    · exact pinLatch_append _ _ q
    · rw [heffect.outputs]
      exact pinLatch_append _ _ q
  case setf =>
    intro s t i c h0 hlt hc h
    have hsel := selected_of_valid h0 hlt hc
    have hf : freqInRange s.params 0 = false := by
      have hmin := s.params.fMinRange.1
      exact freqInRange_eq_false_iff.2 (.inl (by omega))
    have hout : t.outputs = s.outputs ++ [.pinWrite c.pin .low] := by
      rw [(setf_effect h).outputs, commandWrites, hsel]
      simp [hf]
    rw [hout]
    refine ⟨?_, fun q hq => ?_⟩ <;> rw [pinLatch_append]
    · exact if_pos rfl
    · exact if_neg (Ne.symm hq)

end Sys2Proof.Machine
end

