-- ==== Sys2Proof/Proofs/RunningBlock.lean ====
section
/-! PROOFS. A block between one Reset and the next (10_state.md R22, R24, R27, R33, R43; 20_memory.md R57): the clock is
started once, and then the bank's shape, its pins and, but for EN and DIS, its flags are fixed. -/

namespace Sys2Proof.Machine

/-- A relation that is kept by waiting and by every event but Reset holds over any steps without a Reset. -/
theorem steps_without_reset {R : State → State → Prop} (hrefl : ∀ s, R s s)
    (htrans : ∀ {a b c}, R a b → R b c → R a c)
    (hevent : ∀ {e : Event} {es : List Event} {s t : State}, e ≠ .reset →
      takeEvent e { s with inputs := es } = .next t → R s t)
    {n : Nat} {s t : State} (h : steps n s = .next t) (hreset : Event.reset ∉ s.inputs.take n) : R s t := by
  induction n generalizing s with
  | zero =>
    cases h
    exact hrefl _
  | succ n ih =>
    obtain ⟨u, hu⟩ := step_next s
    rw [steps_succ hu] at h
    obtain ⟨hi, rfl⟩ | ⟨e, es, hi, he⟩ := step_cases hu
    · exact ih h (by rw [hi, List.take_nil]; exact List.not_mem_nil)
    · rw [hi, List.take_succ_cons, List.mem_cons, not_or] at hreset
      have hinputs : u.inputs = es := takeEvent_inputs he
      exact htrans (hevent (Ne.symm hreset.1) he) (ih h (by rw [hinputs]; exact hreset.2))

/-! ## TimerStart -/

theorem timerStarts_append (os qs : List Output) : timerStarts (os ++ qs) = timerStarts os ++ timerStarts qs :=
  List.filter_append ..

theorem timerStarts_of_pinWrites {os : List Output} (h : ∀ o ∈ os, o.isPinWrite = true) : timerStarts os = [] := by
  refine List.filter_eq_nil_iff.2 fun o ho => ?_
  have hwrite := h o ho
  cases o with
  | pinWrite p l => exact Bool.false_ne_true
  | timerStart us => cases hwrite

/-- Over a part of a run the clock is started once if the block began to run in it, and else not; it goes on running. -/
structure State.StartsOnce (s t : State) : Prop where
  params : t.params = s.params
  starts : timerStarts t.outputs = timerStarts s.outputs ++
    if s.running = false ∧ t.running = true then [.timerStart (1000000 / s.params.fMaster)] else []
  running : s.running = true → t.running = true

section StartsOnce
variable {s t u : State}

theorem State.StartsOnce.of_pinWrites {os : List Output} (hp : t.params = s.params) (hr : t.running = s.running)
    (hout : t.outputs = s.outputs ++ os) (hos : ∀ o ∈ os, o.isPinWrite = true) : s.StartsOnce t := by
  refine ⟨hp, ?_, fun h => hr.trans h⟩
  rw [hout, timerStarts_append, timerStarts_of_pinWrites hos, hr, if_neg (by simp)]

theorem State.StartsOnce.of_no_output (hp : t.params = s.params) (hr : t.running = s.running)
    (hout : t.outputs = s.outputs) : s.StartsOnce t :=
  .of_pinWrites hp hr (hout.trans (List.append_nil _).symm) fun _ hmem => absurd hmem List.not_mem_nil

theorem State.StartsOnce.trans (h : s.StartsOnce t) (h' : t.StartsOnce u) : s.StartsOnce u := by
  refine ⟨h'.params.trans h.params, ?_, fun hr => h'.running (h.running hr)⟩
  rw [h'.starts, h.starts, h.params, List.append_assoc]
  cases hs : s.running with
  | true => simp [h.running hs]
  | false =>
    cases ht : t.running with
    | true => simp [h'.running ht]
    | false => simp

theorem takeEvent_startsOnce {e : Event} {es : List Event} (he : e ≠ .reset)
    (h : takeEvent e { s with inputs := es } = .next t) : s.StartsOnce t := by
  obtain ⟨rfl, -⟩ | ⟨-, rfl⟩ | ⟨d, rfl⟩ | ⟨hr, pairs, d, rfl⟩ | ⟨w, i, d, -, heffect, -⟩ := takeEvent_effect h
  case inl => exact absurd rfl he
  case inr.inl => exact .of_pinWrites rfl rfl rfl isPinWrite_of_mem_tickBankOutputs
  case inr.inr.inl => exact .of_no_output rfl rfl rfl
  case inr.inr.inr.inl =>
    refine ⟨rfl, ?_, fun _ => rfl⟩
    rw [if_pos ⟨hr, rfl⟩, startBank_outputs, timerStarts_append]
    rfl
  case inr.inr.inr.inr =>
    exact .of_pinWrites heffect.params heffect.running heffect.outputs isPinWrite_of_mem_commandWrites

end StartsOnce

/-- Settles O48: one event at a time. -/
theorem timerStartsOncePerReset : Obligations.TimerStartsOncePerReset := by
  intro n s t h hreset
  have hrefl : ∀ s : State, s.StartsOnce s := fun _ => .of_no_output rfl rfl rfl
  obtain ⟨-, hstarts, hrunning⟩ := steps_without_reset hrefl .trans takeEvent_startsOnce h hreset
  exact ⟨hstarts, hrunning⟩

/-! ## The bank -/

/-- A running block goes on running with the same channels in use on the same pins. -/
def State.KeepsBank (s t : State) : Prop :=
  s.running = true → t.running = true ∧ t.count = s.count ∧
    ∀ j : Nat, (t.ch[j]?).map Channel.pin = (s.ch[j]?).map Channel.pin

theorem State.KeepsBank.trans {s t u : State} (h : s.KeepsBank t) (h' : t.KeepsBank u) : s.KeepsBank u := by
  intro hr
  obtain ⟨hrt, hn, hpin⟩ := h hr
  obtain ⟨hru, hn', hpin'⟩ := h' hrt
  exact ⟨hru, hn'.trans hn, fun j => (hpin' j).trans (hpin j)⟩

theorem map_pin_map {o : Option Channel} {g : Channel → Channel} (hg : ∀ c, (g c).pin = c.pin) :
    (o.map g).map Channel.pin = o.map Channel.pin := by
  rw [Option.map_map]
  exact Option.map_congr fun c _ => hg c

theorem takeEvent_keepsBank {e : Event} {es : List Event} {s t : State} (he : e ≠ .reset)
    (h : takeEvent e { s with inputs := es } = .next t) : s.KeepsBank t := by
  intro hr
  obtain ⟨rfl, -⟩ | ⟨-, rfl⟩ | ⟨d, rfl⟩ | ⟨hr', -⟩ | ⟨w, i, d, -, heffect, -⟩ := takeEvent_effect h
  case inl => exact absurd rfl he
  case inr.inl =>
    refine ⟨hr, rfl, fun j => ?_⟩
    rw [tickStep_channel]
    exact map_pin_map fun c => c.pin_ite_ticked _
  case inr.inr.inl => exact ⟨hr, rfl, fun _ => rfl⟩
  case inr.inr.inr.inl => exact absurd hr (by rw [hr']; exact Bool.false_ne_true)
  case inr.inr.inr.inr =>
    refine ⟨heffect.running.trans hr, heffect.count, fun j => ?_⟩
    rw [heffect.channel]
    exact map_pin_map (commandOnChannel_pin _ _ j i)

/-- Settles O49: one event at a time. -/
theorem bankIsFixedOnceRunning : Obligations.BankIsFixedOnceRunning := by
  intro n s t h hreset hr
  have hrefl : ∀ s : State, s.KeepsBank s := fun _ hr => ⟨hr, rfl, fun _ => rfl⟩
  obtain ⟨-, hn, hpin⟩ := steps_without_reset hrefl .trans takeEvent_keepsBank h hreset hr
  exact ⟨hn, hpin⟩

/-! ## The flags -/

/-- Of the commands but the first INIT only EN and DIS of the channel's own index change its flag (R27). -/
theorem commandOnChannel_en {p : Params} {n j : Nat} {i : Instr} {c : Channel}
    (h : (commandOnChannel p n j i c).en ≠ c.en) :
    i = .en j ∧ (commandOnChannel p n j i c).en = true ∨ i = .dis j ∧ (commandOnChannel p n j i c).en = false := by
  cases i with
  | setf idx f =>
    refine absurd ?_ h
    simp only [commandOnChannel]
    split <;> simp
  | en idx =>
    simp only [commandOnChannel] at h ⊢
    split at h
    case isTrue hv =>
      rw [if_pos hv, hv.1]
      exact .inl ⟨rfl, rfl⟩
    case isFalse => exact absurd rfl h
  | dis idx =>
    simp only [commandOnChannel] at h ⊢
    split at h
    case isTrue hv =>
      rw [if_pos hv, hv.1]
      exact .inr ⟨rfl, rfl⟩
    case isFalse => exact absurd rfl h
  | _ => exact absurd rfl h

/-- Settles O50: by what the event does to channel j. -/
theorem onlyEnableAndDisableWriteTheFlag : Obligations.OnlyEnableAndDisableWriteTheFlag := by
  intro s t e es j c d hr h hc hd hne
  obtain ⟨rfl, -⟩ | ⟨-, rfl⟩ | ⟨dec, rfl⟩ | ⟨hr', -⟩ | ⟨w, i, dec, rfl, heffect, hword⟩ :=
    takeEvent_effect (s := { s with inputs := es }) h
  case inl => exact .inl rfl
  case inr.inl =>
    rw [tickStep_channel, hc] at hd
    cases hd
    refine absurd ?_ hne
    split
    · exact c.ticked_en
    · rfl
  case inr.inr.inl =>
    cases hc.symm.trans hd
    exact absurd rfl hne
  case inr.inr.inr.inl => exact absurd hr (by rw [hr']; exact Bool.false_ne_true)
  case inr.inr.inr.inr =>
    rw [heffect.channel, hc] at hd
    cases hd
    obtain ⟨pairs, rfl⟩ | ⟨hm, hfirst⟩ := hword
    · exact absurd rfl hne
    · refine .inr ⟨w, rfl, hm, ?_⟩
      obtain ⟨rfl, hen⟩ | ⟨rfl, hen⟩ := commandOnChannel_en hne
      · exact .inl ⟨hfirst, hen⟩
      · exact .inr ⟨hfirst, hen⟩

end Sys2Proof.Machine
end

