-- ==== Sys2Proof/Proofs/KeptInvariant.lean ====
section
/-! PROOFS. The invariant of 10_state.md section 8 holds after reset and is kept by every step: what it says of one
channel is kept by the per-channel operations, and what it says of the decoder by the decoder. -/

namespace Sys2Proof.Machine

/-! ## One channel -/

/-- What the invariant says of one record (R25, R38, R39). -/
structure Channel.Sound (p : Params) (c : Channel) : Prop where
  tphLe : c.tph.toNat ≤ p.fMaster
  cntLe : 0 < c.tph.toNat → c.cnt.toNat ≤ c.tph.toNat
  lvlLow : c.tph = 0 → c.lvl = .low

section Sound
variable {p : Params} {c : Channel}

theorem Channel.sound_atReset (p : Params) : Channel.atReset.Sound p :=
  ⟨Nat.zero_le _, fun _ => Nat.zero_le _, fun _ => rfl⟩

theorem Channel.Sound.withEn (h : c.Sound p) (b : Bool) : (c.withEn b).Sound p := ⟨h.tphLe, h.cntLe, h.lvlLow⟩

/-- A counter at T is cleared, one below T moves up to T at most. -/
theorem Channel.Sound.ticked (h : c.Sound p) : c.ticked.Sound p := by
  refine ⟨by rw [Channel.ticked_tph]; exact h.tphLe, fun hT => ?cnt, fun hsilent => ?lvl⟩
  case cnt =>
    rw [Channel.ticked_tph] at hT ⊢
    cases hedge : c.edgeDue with
    | true =>
      rw [Channel.ticked_cnt_of_edge hedge]
      exact Nat.zero_le _
    | false =>
      have hcnt := Channel.ticked_cnt_of_no_edge hT hedge
      have hbelow : ¬ c.tph.toNat ≤ c.cnt.toNat := fun hge => Bool.eq_false_iff.1 hedge (c.edgeDue_iff.2 ⟨hT, hge⟩)
      exact hcnt.trans_le (Nat.lt_of_not_le hbelow)
  case lvl =>
    rw [Channel.ticked_tph] at hsilent
    have hlvl := congrArg Channel.lvl (c.iterate_silent hsilent 1)
    exact hlvl.trans (h.lvlLow hsilent)

/-- SETF writes counter and tick count anew, and LOW with a tick count of 0. -/
theorem Channel.sound_setf (f : Int) : (c.setf p f).Sound p := by
  cases hf : freqInRange p f with
  | false =>
    rw [c.setf_of_outOfRange hf]
    exact ⟨Nat.zero_le _, fun _ => Nat.zero_le _, fun _ => rfl⟩
  | true =>
    obtain ⟨hmin, -⟩ := freqInRange_iff.1 hf
    have hpos : 0 < f := by
      have := p.fMinRange.1
      omega
    have htph : (c.retuned p f).tph.toNat = ticksFor f p.fMaster := ticksFor_toNat p hpos
    rw [c.setf_of_inRange hf]
    refine ⟨htph.trans_le (ticksFor_le hpos _), fun _ => Nat.zero_le _, fun hsilent => ?_⟩
    have hne := ticksFor_pos hpos p.fMasterRange.1
    rw [← htph, hsilent] at hne
    exact absurd hne (Nat.lt_irrefl 0)

theorem Channel.Sound.commandOnChannel (h : c.Sound p) (n j : Nat) (i : Instr) :
    (Machine.commandOnChannel p n j i c).Sound p := by
  cases i with
  | setf idx f =>
    simp only [Machine.commandOnChannel]
    split
    · exact Channel.sound_setf f
    · exact h
  | en idx | dis idx =>
    simp only [Machine.commandOnChannel]
    split
    · exact h.withEn _
    · exact h
  | _ => exact h

theorem initChannel_sound (p : Params) (x : ChannelInit) : (initChannel p x).Sound p := by
  refine ⟨?_, fun _ => Nat.zero_le _, fun _ => rfl⟩
  by_cases hpos : 0 < x.freq
  · rw [(initChannel_of_pos p hpos).2]
    exact ceilDiv_le_self (by omega)
  · rw [(initChannel_of_nonpos p (Int.not_lt.1 hpos)).2]
    exact Nat.zero_le _

end Sound

theorem State.Inv.sound {s : State} (h : s.Inv) {j : Nat} {c : Channel} (hc : s.ch[j]? = some c) :
    c.Sound s.params :=
  ⟨h.tphLe j c hc, h.cntLe j c hc, h.lvlLow j c hc⟩

/-! ## The state -/

theorem inv_of_clauses {s : State} (hbank : s.ch.length = s.params.cap) (hstage : s.dec.stage.length = s.params.cap)
    (hcount : s.count ≤ s.params.cap) (hzero : s.running = false → s.count = 0)
    (hunused : ∀ (j : Nat) (c : Channel), s.count ≤ j → s.ch[j]? = some c → c = Channel.atReset)
    (hsound : ∀ (j : Nat) (c : Channel), s.ch[j]? = some c → c.Sound s.params)
    (hseen : s.dec.mode = .payload → s.dec.seen.toNat < s.dec.total.toNat) : s.Inv :=
  ⟨hbank, hstage, hcount, hzero, hunused, fun j c hc => (hsound j c hc).tphLe, fun j c hc => (hsound j c hc).cntLe,
    fun j c hc => (hsound j c hc).lvlLow, hseen⟩

theorem resetStep_inv (s : State) : (resetStep s).Inv := by
  have hall : ∀ (j : Nat) (c : Channel), (List.replicate s.params.cap Channel.atReset)[j]? = some c →
      c = Channel.atReset := fun j c hc => List.eq_of_mem_replicate (List.mem_of_getElem? hc)
  exact inv_of_clauses List.length_replicate List.length_replicate (Nat.zero_le _) (fun _ => rfl)
    (fun j c _ hc => hall j c hc) (fun j c hc => hall j c hc ▸ Channel.sound_atReset _) (fun hm => by cases hm)

/-- A change of the channels in use, each by an operation that keeps what the invariant says of it. -/
theorem State.Inv.of_channels {s t : State} (h : s.Inv) (hp : t.params = s.params) (hr : t.running = s.running)
    (hn : t.count = s.count) (hd : t.dec = s.dec) (hl : t.ch.length = s.ch.length) {g : Nat → Channel → Channel}
    (hch : ∀ j : Nat, t.ch[j]? = (s.ch[j]?).map (g j)) (hunused : ∀ j, s.count ≤ j → g j = id)
    (hsound : ∀ j c, Channel.Sound s.params c → Channel.Sound s.params (g j c)) : t.Inv := by
  refine inv_of_clauses (by rw [hl, hp, h.bankSize]) (by rw [hd, hp, h.stageSize]) (by rw [hn, hp]; exact h.countLe)
    (by rw [hr, hn]; exact h.countZero) (fun j c hj hc => ?unused) (fun j c hc => ?sound) (by rw [hd]; exact h.seenLt)
  case unused =>
    rw [hn] at hj
    rw [hch, hunused j hj, Option.map_id_apply] at hc
    exact h.unused j c hj hc
  case sound =>
    rw [hch] at hc
    obtain ⟨b, hb, rfl⟩ := Option.map_eq_some_iff.1 hc
    rw [hp]
    exact hsound j b (h.sound hb)

theorem State.Inv.tickStep {s : State} (h : s.Inv) : (Machine.tickStep s).Inv := by
  refine h.of_channels rfl rfl rfl rfl (tickBank_length _ _) (tickStep_channel s)
    (fun j hj => if_neg (Nat.not_lt.2 hj)) (fun j c hc => ?_)
  split
  · exact hc.ticked
  · exact hc

theorem State.Inv.startBank {s : State} (h : s.Inv) (hr : s.running = false) (pairs : List ChannelInit) :
    (Machine.startBank pairs s).Inv := by
  refine inv_of_clauses ((startBank_length h.bankSize).trans h.bankSize) h.stageSize (min_le_right _ _)
    (fun hf => by cases hf) (fun j c hj hc => ?unused) (fun j c hc => ?sound) h.seenLt
  case unused =>
    rw [startBank_unused hj] at hc
    exact h.unused j c (by rw [h.countZero hr]; exact Nat.zero_le j) hc
  case sound =>
    rw [startBank_ch, initBank_getElem?] at hc
    split at hc <;> cases hc
    case h_2 => exact h.sound (by assumption)
    case h_3 => exact initChannel_sound _ _

/-! ## The decoder -/

/-- What the invariant says of the decoder (R34). -/
def Decoder.Sound (cap : Nat) (d : Decoder) : Prop :=
  d.stage.length = cap ∧ (d.mode = .payload → d.seen.toNat < d.total.toNat)

theorem State.Inv.withDec {s : State} (h : s.Inv) {d : Decoder} (hd : d.Sound s.params.cap) :
    State.Inv { s with dec := d } :=
  ⟨h.bankSize, hd.1, h.countLe, h.countZero, h.unused, h.tphLe, h.cntLe, h.lvlLow, hd.2⟩

theorem Decoder.Sound.afterPayload {cap : Nat} {d : Decoder} (h : d.Sound cap) (hm : d.mode = .payload) (w : Word) :
    (d.afterPayload cap w).Sound cap := by
  refine ⟨(Decoder.staged_length cap w d).trans h.1, fun hmore => ?_⟩
  have hlt := h.2 hm
  have hne : d.seen + 1 ≠ d.total := by
    intro hlast
    rw [Decoder.afterPayload_mode_of_last hlast] at hmore
    cases hmore
  have htotal := d.total.isLt
  have hsucc : (d.seen + 1).toNat = d.seen.toNat + 1 :=
    (BitVec.toNat_add _ _).trans (Nat.mod_eq_of_lt (by simp; omega))
  have hne' : d.seen.toNat + 1 ≠ d.total.toNat := fun heq => hne (BitVec.eq_of_toNat_eq (hsucc.trans heq))
  show (d.seen + 1).toNat < d.total.toNat
  omega

/-! ## Steps -/

theorem State.Inv.exec {s t : State} (h : s.Inv) {i : Instr} (hexec : Machine.exec i s = .next t) : t.Inv := by
  obtain ⟨pairs, -, hr, rfl⟩ | heffect := exec_effect hexec
  · exact h.startBank hr pairs
  · exact h.of_channels heffect.params heffect.running heffect.count heffect.dec heffect.length heffect.channel
      (fun j hj => commandOnChannel_of_unused hj i) (fun j c hc => hc.commandOnChannel _ _ _)

theorem State.Inv.takeEvent {s t : State} (h : s.Inv) {e : Event} (hevent : Machine.takeEvent e s = .next t) :
    t.Inv := by
  have hd : s.dec.Sound s.params.cap := ⟨h.stageSize, h.seenLt⟩
  cases e with
  | reset =>
    cases hevent
    exact resetStep_inv s
  | tick =>
    cases hevent
    exact h.tickStep
  | cmd w =>
    cases hm : s.dec.mode with
    | idle =>
      cases hw : decodeFirst w with
      | command i =>
        rw [takeEvent_idle_command hm hw] at hevent
        exact h.exec hevent
      | initHeader n =>
        rw [takeEvent_idle_initHeader hm hw] at hevent
        cases hevent
        obtain ⟨-, -, hn⟩ := decodeFirst_header_inv hw
        exact h.withDec ⟨h.stageSize, fun _ => Nat.pos_of_ne_zero (BitVec.toNat_ne.1 hn)⟩
    | payload =>
      have hd' := h.withDec (hd.afterPayload hm w)
      by_cases hlast : s.dec.seen + 1 = s.dec.total
      · rw [takeEvent_payload_last hm hlast] at hevent
        exact hd'.exec hevent
      · rw [takeEvent_awaitsMore (State.awaitsMore_iff.2 ⟨hm, hlast⟩)] at hevent
        cases hevent
        exact hd'

/-- Settles O54: by what the step takes; what is presented is no part of the invariant. -/
theorem everyStepKeepsTheInvariant : Obligations.EveryStepKeepsTheInvariant := by
  intro s t h hstep
  obtain ⟨-, rfl⟩ | ⟨e, es, -, hevent⟩ := step_cases hstep
  · exact h
  · have h' : State.Inv { s with inputs := es } :=
      ⟨h.bankSize, h.stageSize, h.countLe, h.countZero, h.unused, h.tphLe, h.cntLe, h.lvlLow, h.seenLt⟩
    exact h'.takeEvent hevent

/-- Settles O53: the state after reset is what a Reset leaves, with no channel in use. -/
theorem resetStateMeetsTheInvariant : Obligations.ResetStateMeetsTheInvariant := by
  refine ⟨fun p => ⟨resetStep_inv (State.resetOf p), ?_⟩, rfl⟩
  rintro j c ⟨hj, -⟩
  exact absurd hj (Nat.not_lt_zero j)

end Sys2Proof.Machine
end

