-- ==== Sys2Proof/Proofs/LastWrite.lean ====
section
/-! PROOFS. A channel's level is the last one written to its pin since INIT (10_state.md R28), for a channel that alone
holds its pin: every event that changes the level writes the new one. -/

namespace Sys2Proof.Machine

/-! ## The last write since the clock was started -/

theorem writeSinceStart_append (os qs : List Output) (p : Pin) :
    writeSinceStart (os ++ qs) p = qs.foldl (writeSinceStartStep p) (writeSinceStart os p) := List.foldl_append

theorem writesOn_cons_pinWrite (p q : Pin) (m : Level) (os : List Output) :
    writesOn p (.pinWrite q m :: os) = if q = p then m :: writesOn p os else writesOn p os := by
  by_cases hq : q = p
  · rw [if_pos hq]
    exact List.filterMap_cons_some (if_pos hq)
  · rw [if_neg hq]
    exact List.filterMap_cons_none (if_neg hq)

/-- After pin writes the last write to p is the last of them on p, or else the one before them. -/
theorem foldl_writeSinceStartStep (p : Pin) {os : List Output} (h : ∀ o ∈ os, o.isPinWrite = true) (l : Option Level) :
    os.foldl (writeSinceStartStep p) l = ((writesOn p os).getLast?).or l := by
  induction os generalizing l with
  | nil => rfl
  | cons o os ih =>
    have ih' := ih (fun o ho => h o (List.mem_cons_of_mem _ ho))
    have ho := h o List.mem_cons_self
    rw [List.foldl_cons, ih']
    cases o with
    | timerStart us => cases ho
    | pinWrite q m =>
      rw [writeSinceStartStep, writesOn_cons_pinWrite]
      split
      · rw [List.getLast?_cons]
        cases (writesOn p os).getLast? <;> rfl
      · rfl

/-- `l` is the last level written to pin p since the clock was started, or LOW with none written. -/
def IsLastWrite (os : List Output) (p : Pin) (l : Level) : Prop :=
  writeSinceStart os p = some l ∨ (writeSinceStart os p = none ∧ l = .low)

section IsLastWrite
variable {os qs : List Output} {p : Pin} {l m : Level}

/-- Pin writes that leave p and its level alone, or end on p with the new level. -/
theorem IsLastWrite.append (h : IsLastWrite os p l) (hqs : ∀ o ∈ qs, o.isPinWrite = true)
    (hwrites : writesOn p qs = [] ∧ m = l ∨ writesOn p qs = [m]) : IsLastWrite (os ++ qs) p m := by
  rw [IsLastWrite, writeSinceStart_append, foldl_writeSinceStartStep p hqs]
  obtain ⟨hnone, rfl⟩ | hone := hwrites
  · rw [hnone]
    exact h
  · rw [hone]
    exact .inl rfl

theorem isLastWrite_after_timerStart (os : List Output) (p : Pin) (us : Nat) :
    IsLastWrite (os ++ [.timerStart us]) p .low :=
  .inr ⟨writeSinceStart_append os _ p, rfl⟩

end IsLastWrite

/-! ## One event -/

/-- A channel that alone holds its pin did so before an event that changes no pin. -/
theorem State.ownsPin_of_map {s t : State} {j : Nat} {d : Channel} {g : Nat → Channel → Channel}
    (hn : t.count = s.count) (hch : ∀ j : Nat, t.ch[j]? = (s.ch[j]?).map (g j)) (hpin : ∀ j c, (g j c).pin = c.pin)
    (h : t.ownsPin j d) : ∃ c, s.ownsPin j c ∧ d = g j c := by
  obtain ⟨hj, hd, hother⟩ := h
  rw [hn] at hj
  rw [hch] at hd
  obtain ⟨c, hc, rfl⟩ := Option.map_eq_some_iff.1 hd
  refine ⟨c, ⟨hj, hc, fun k b hk hb hne => ?_⟩, rfl⟩
  have hk' : t.ch[k]? = some (g k b) := by rw [hch, hb, Option.map_some]
  have hdiff := hother k (g k b) (hn ▸ hk) hk' hne
  rwa [hpin, hpin] at hdiff

theorem levelIsLastWrite_tickStep {s : State} (h : s.LevelIsLastWrite) : (tickStep s).LevelIsLastWrite := by
  intro j d hd
  obtain ⟨c, hc, rfl⟩ := State.ownsPin_of_map (s := s) (t := tickStep s) rfl (tickStep_channel s)
    (fun _ c => c.pin_ite_ticked _) hd
  obtain ⟨hj, hcj, hother⟩ := hc
  have hwrites := writesOn_tickBankOutputs s.count s.ch hj hcj hother
  rw [if_pos hj, c.ticked_pin, tickStep_outputs]
  refine IsLastWrite.append (h j c ⟨hj, hcj, hother⟩) isPinWrite_of_mem_tickBankOutputs ?_
  cases hedge : c.edgeDue with
  | true =>
    rw [hwrites, if_pos hedge, Channel.ticked_lvl_of_edge hedge]
    exact .inr rfl
  | false =>
    rw [hwrites, hedge, c.ticked_of_no_edge hedge]
    exact .inl ⟨rfl, rfl⟩

theorem levelIsLastWrite_startBank (s : State) (pairs : List ChannelInit) :
    (startBank pairs s).LevelIsLastWrite := by
  intro j c hc
  obtain ⟨hj, hcj, -⟩ := hc
  have hlen : j < (pairs.take s.params.cap).length := by
    rw [List.length_take, Nat.min_comm]
    exact hj
  rw [startBank_ch, initBank_getElem?, List.getElem?_eq_getElem hlen] at hcj
  split at hcj <;> cases hcj
  case h_2 heq _ => cases heq
  case h_3 => exact isLastWrite_after_timerStart s.outputs _ _

/-- A command writes the pin of a channel that alone holds it exactly when it silences that channel; no other command
changes the level. -/
theorem commandWrites_on_pin {s : State} {j : Nat} {c : Channel} (hc : s.ownsPin j c) (i : Instr) :
    writesOn c.pin (commandWrites s i) = [] ∧ (commandOnChannel s.params s.count j i c).lvl = c.lvl ∨
    writesOn c.pin (commandWrites s i) = [(commandOnChannel s.params s.count j i c).lvl] := by
  obtain ⟨hj, hcj, hother⟩ := hc
  cases i with
  | setf idx f =>
    cases hf : freqInRange s.params f with
    | true =>
      have hnone : commandWrites s (.setf idx f) = [] := by
        cases hsel : selected idx s <;> simp [commandWrites, hsel, hf]
      refine .inl ⟨by rw [hnone]; rfl, ?_⟩
      simp only [commandOnChannel]
      split
      · rw [c.setf_of_inRange hf, Channel.retuned_lvl]
      · rfl
    | false =>
      cases hsel : selected idx s with
      | none =>
        have hsame := map_ite_of_not_selected hsel (Channel.setf s.params f) j
        rw [hcj, Option.map_some] at hsame
        exact .inl ⟨by rw [commandWrites, hsel]; rfl, congrArg Channel.lvl (Option.some.inj hsame)⟩
      | some kb =>
        obtain ⟨k, b⟩ := kb
        obtain ⟨h0, hlt, rfl, hb⟩ := selected_eq_some.1 hsel
        have hone : commandWrites s (.setf idx f) = [.pinWrite b.pin .low] := by simp [commandWrites, hsel, hf]
        rw [hone, writesOn_cons_pinWrite]
        by_cases hk : idx.toNat = j
        · subst hk
          cases hb.symm.trans hcj
          have hv : idx = ((idx.toNat : Nat) : Int) ∧ idx.toNat < s.count := by omega
          simp only [commandOnChannel, if_pos hv, c.setf_of_outOfRange hf]
          exact .inr (if_pos trivial)
        · have hv : ¬(idx = j ∧ j < s.count) := by omega
          have hdiff := hother idx.toNat b (by omega) hb hk
          simp only [commandOnChannel, if_neg hv]
          exact .inl ⟨if_neg hdiff, rfl⟩
  | en idx | dis idx =>
    refine .inl ⟨rfl, ?_⟩
    simp only [commandOnChannel]
    split <;> rfl
  | _ => exact .inl ⟨rfl, rfl⟩

theorem levelIsLastWrite_effect {s t : State} {i : Instr} (h : s.LevelIsLastWrite) (heffect : CommandEffect i s t) :
    t.LevelIsLastWrite := by
  intro j d hd
  obtain ⟨c, hc, rfl⟩ := State.ownsPin_of_map heffect.count heffect.channel
    (fun j c => commandOnChannel_pin _ _ j i c) hd
  rw [commandOnChannel_pin, heffect.outputs]
  exact IsLastWrite.append (h j c hc) isPinWrite_of_mem_commandWrites (commandWrites_on_pin hc i)

/-- Settles O55: a tick and a command write what they change; INIT starts anew with every level LOW; Reset leaves no
channel in use. -/
theorem everyStepKeepsLevelAsLastWrite : Obligations.EveryStepKeepsLevelAsLastWrite := by
  intro s t h hstep
  obtain ⟨-, rfl⟩ | ⟨e, es, -, hevent⟩ := step_cases hstep
  · exact h
  · obtain ⟨-, rfl⟩ | ⟨-, rfl⟩ | ⟨d, rfl⟩ | ⟨-, pairs, d, rfl⟩ | ⟨w, i, d, -, heffect, -⟩ := takeEvent_effect hevent
    · exact fun j c hc => absurd hc.1 (Nat.not_lt_zero j)
    · exact levelIsLastWrite_tickStep (s := { s with inputs := es }) h
    · exact h
    · exact levelIsLastWrite_startBank _ pairs
    · exact levelIsLastWrite_effect (s := { s with inputs := es, dec := d }) h heffect

end Sys2Proof.Machine
end

