-- ==== Sys2Proof/Proofs/ConverterLaws.lean ====
section
/-! PROOFS. The converter's range and laws (40_tick_converter.md R102, R103, R106), from what a bound on the tick count
says: `ticksFor_le_iff`. -/

namespace Sys2Proof.Machine

section Positive
variable {f : Int} (hf : 0 < f)
include hf

theorem le_ticksFor_mul (m : Nat) : (m : Int) ≤ ticksFor f m * f := (ticksFor_le_iff hf m _).1 le_rfl

theorem ticksFor_eq_one_iff {m : Nat} (hm : 1 ≤ m) : ticksFor f m = 1 ↔ (m : Int) ≤ f := by
  have hpos := ticksFor_pos hf hm
  have hone := ticksFor_le_iff hf m 1
  rw [Nat.cast_one, one_mul] at hone
  rw [← hone]
  omega

/-- From f = 2 on one tick fewer than M is enough, if M is at least 2. -/
theorem ticksFor_eq_self_iff {m : Nat} (hm : 2 ≤ m) : ticksFor f m = m ↔ f = 1 := by
  constructor
  · intro heq
    by_contra hne
    have hfewer : ticksFor f m ≤ m - 1 := by
      rw [ticksFor_le_iff hf]
      have htwo : ((m - 1 : Nat) : Int) * 2 ≤ (m - 1 : Nat) * f :=
        mul_le_mul_of_nonneg_left (by omega) (Int.natCast_nonneg _)
      omega
    omega
  · rintro rfl
    have hle := ticksFor_le_iff hf m (ticksFor 1 m)
    have hmax := ticksFor_le hf m
    omega

/-- One tick less does not reach M (R103). -/
theorem pred_ticksFor_mul_lt {m : Nat} (hm : 1 ≤ m) : ((ticksFor f m : Int) - 1) * f < m := by
  have hpos := ticksFor_pos hf hm
  have hless := mt (ticksFor_le_iff hf m (ticksFor f m - 1)).2 (by omega)
  rw [Nat.cast_sub hpos, Nat.cast_one] at hless
  exact Int.not_le.1 hless

theorem ticksFor_antitone {g : Int} (hfg : f ≤ g) (m : Nat) : ticksFor g m ≤ ticksFor f m :=
  (ticksFor_le_iff (hf.trans_le hfg) m _).2
    ((le_ticksFor_mul hf m).trans (mul_le_mul_of_nonneg_left hfg (Int.natCast_nonneg _)))

theorem natCast_ticksFor_of_dvd {m : Nat} (hdvd : f ∣ (m : Int)) : (ticksFor f m : Int) = m / f := by
  obtain ⟨k, hk⟩ := hdvd
  have hquot : f * k + f - 1 = f - 1 + f * k := by omega
  have hsmall : (f - 1) / f = 0 := Int.ediv_eq_zero_of_lt (by omega) (by omega)
  rw [natCast_ticksFor hf, hk, hquot, Int.add_mul_ediv_left _ _ hf.ne', hsmall, Int.mul_ediv_cancel_left _ hf.ne',
    zero_add]

end Positive

/-- Settles O32: each bound is a multiple of f compared with M. -/
theorem ticksForRange : Obligations.TicksForRange := by
  refine ⟨fun f m hf hm => ?_, fun p f hf => ticksFor_toNat p hf, fun p f hmin hmax => ticksFor_inRange p hmin hmax⟩
  exact ⟨ticksFor_pos hf hm, ticksFor_le hf m, ticksFor_eq_self_iff hf, ticksFor_eq_one_iff hf hm⟩

/-- Settles O33: the quotient when f divides M, the least multiple otherwise; 3 ticks and not 2 reach 8000 throughout
the interval. -/
theorem ticksForLaws : Obligations.TicksForLaws := by
  refine ⟨fun f m hf _ hdvd => natCast_ticksFor_of_dvd hf hdvd,
    fun f m hf hm => ⟨le_ticksFor_mul hf m, pred_ticksFor_mul_lt hf hm⟩,
    fun f g m hf hfg _ => ticksFor_antitone hf hfg m, fun f hmin hmax => ?_⟩
  have hpos : 0 < f := by omega
  have hthree := (ticksFor_le_iff hpos 8000 3).2 (by omega)
  have htwo := mt (ticksFor_le_iff hpos 8000 2).1 (by omega)
  omega

/-- Settles O34: twelve closed values. -/
theorem ticksForWorkedExamples : Obligations.TicksForWorkedExamples := by
  unfold Obligations.TicksForWorkedExamples
  decide

end Sys2Proof.Machine
end

