-- ==== Sys2Proof/Proofs/EventOrder.lean ====
section
/-! PROOFS. Events in one total order (20_memory.md R64; 60_exceptions.md R160, R165): every one is accepted, a run is
their fold, and what Reset and the order of the ports come to. -/

namespace Sys2Proof.Machine

/-! ## Every event is accepted -/

/-- A step takes one event, adds outputs at the end and keeps the parameters. -/
theorem step_frame {s t : State} (h : step s = .next t) :
    (∃ os, t.outputs = s.outputs ++ os) ∧ t.inputs = s.inputs.tail ∧ t.params = s.params := by
  obtain ⟨hi, rfl⟩ | ⟨e, es, hi, he⟩ := step_cases h
  · exact ⟨⟨[], (List.append_nil _).symm⟩, by rw [hi]; rfl, rfl⟩
  · obtain ⟨hout, hp⟩ := takeEvent_outputs he
    exact ⟨hout, by rw [takeEvent_inputs he, hi]; rfl, hp⟩

/-- Settles O12: no command, no step and no number of steps answers anything but a next state. -/
theorem everyEventIsAcceptedInEveryState : Obligations.EveryEventIsAcceptedInEveryState := by
  refine ⟨exec_next, fun s => ?_, steps_next⟩
  obtain ⟨t, ht⟩ := step_next s
  obtain ⟨⟨os, hout⟩, hi, hp⟩ := step_frame ht
  exact ⟨t, os, ht, hout, hi, hp⟩

/-- Settles O14. -/
theorem waitsWhenNothingIsPresented : Obligations.WaitsWhenNothingIsPresented := fun s h => step_nil s h

/-! ## Runs -/

/-- A run leaves what was presented after its events, and adds outputs at the end. -/
theorem runEvents_frame (es : List Event) (s : State) :
    ∃ t os, runEvents es s = .next t ∧ t.inputs = s.inputs ∧ t.outputs = s.outputs ++ os := by
  induction es generalizing s with
  | nil => exact ⟨s, [], rfl, rfl, (List.append_nil _).symm⟩
  | cons e es ih =>
    obtain ⟨u, hu⟩ := takeEvent_next e s
    obtain ⟨⟨os, hos⟩, -⟩ := takeEvent_outputs hu
    obtain ⟨t, qs, ht, hi, hqs⟩ := ih u
    refine ⟨t, os ++ qs, ?_, hi.trans (takeEvent_inputs hu), by rw [hqs, hos, List.append_assoc]⟩
    rw [runEvents_cons, hu, andThen_next, ht]

/-- Settles O13. -/
theorem runsFoldOverTheEventOrder : Obligations.RunsFoldOverTheEventOrder :=
  ⟨runEvents_append, runEvents_frame⟩

/-- Steps over the presented events, with nothing presented after them, are the run over them. -/
theorem steps_eq_runEvents {s : State} (h : s.inputs = []) (es : List Event) :
    steps es.length { s with inputs := es } = runEvents es s := by
  rw [runEvents, State.present, h, List.append_nil]

/-! ## Reset -/

theorem resetStep_channel {s : State} {j : Nat} (h : j < s.params.cap) :
    (resetStep s).ch[j]? = some Channel.atReset := by
  rw [resetStep_ch, List.getElem?_replicate_of_lt h]

/-- Settles O15: `resetStep`, field by field; the port sample with `rst` = 1 presents Reset alone. -/
theorem resetEventClearsTheBlock : Obligations.ResetEventClearsTheBlock := by
  intro s es
  exact ⟨resetStep { s with inputs := es }, rfl, rfl, rfl, List.length_replicate, fun j hj => resetStep_channel hj, rfl,
    rfl, rfl, rfl, rfl, rfl, fun b v w => rfl⟩

/-- With no channel in use a tick changes nothing. -/
theorem tickStep_of_count_zero {s : State} (h : s.count = 0) : tickStep s = s := by
  have hbank : tickBank s.count s.ch = s.ch := by rw [h, tickBank]
  have hout : tickBankOutputs s.count s.ch = [] := by rw [h, tickBankOutputs]
  rw [tickStep, hbank, hout, List.append_nil]

theorem exec_of_not_selected {s : State} {i : Int} (h : selected i s = none) (f : Int) :
    exec (.setf i f) s = .next s ∧ exec (.en i) s = .next s ∧ exec (.dis i) s = .next s := by
  simp only [exec, execSetf, execEn, execDis, setEnabled, h, and_self]

/-- Settles O23: an invalid index selects nothing. -/
theorem invalidIndexIsANoOp : Obligations.InvalidIndexIsANoOp :=
  fun _ _ f h => exec_of_not_selected (selected_invalid h) f

/-- Settles O16: with `count` = 0 every index is invalid and no channel is in use. -/
theorem resetValuesAndInertUntilInit : Obligations.ResetValuesAndInertUntilInit := by
  refine ⟨fun p => ⟨rfl, rfl, fun j hj => resetStep_channel (s := State.resetOf p) hj, rfl, rfl, rfl⟩,
    fun s i f es h => ?_⟩
  obtain ⟨hsetf, hen, hdis⟩ := exec_of_not_selected (selected_invalid (i := i) (s := s) (by omega)) f
  exact ⟨hsetf, hen, hdis, congrArg Host.Outcome.next (tickStep_of_count_zero (s := { s with inputs := es }) h)⟩

/-! ## The order of the ports -/

/-- Settles O51: what a sampled cycle presents, in its order. -/
theorem portPriorityIsResetTickCommand : Obligations.PortPriorityIsResetTickCommand := by
  intro s w h
  refine ⟨fun b v => ?reset, ?tick⟩
  case reset =>
    have hs : s.sample { rst := true, tick := b, cmdValid := v, cmdWord := w } = { s with inputs := [.reset] } := by
      rw [State.sample, h]
      rfl
    rw [hs, step_present, takeEvent_reset, ← h]
  case tick =>
    have hs : s.sample { rst := false, tick := true, cmdValid := true, cmdWord := w } =
        { s with inputs := [.tick, .cmd w] } := by
      rw [State.sample, h]
      rfl
    rw [hs]
    exact (steps_eq_runEvents h [.tick, .cmd w]).trans (runEvents_append [.tick] [.cmd w] s)

end Sys2Proof.Machine
end

