-- ==== Sys2Proof/Proofs/CommandFacts.lean ====
section
/-! PROOFS. What follows from the effects of the commands: SETF out of range, `mute`, the tick counts written, repeated
commands, the enable mask and the per-channel state machine (41_control_commands.md; 10_state.md R29, R41, R42). -/

namespace Sys2Proof.Machine

/-! ## SETF out of range -/

/-- Settles O21: SETF out of range writes one record, the silenced one, and its pin. -/
theorem setfOutOfRangeSilencesAtOnce : Obligations.SetfOutOfRangeSilencesAtOnce := by
  intro s i f c h0 hlt hc hf
  exact ⟨_, c.silenced, exec_setf_of_outOfRange h0 hlt hc hf, State.setChannel_self hc, rfl, rfl, rfl, rfl, rfl,
    fun _ => State.setChannel_other, List.length_set, rfl, rfl, rfl, rfl, rfl, rfl⟩

/-- Frequency 0 is out of range of SETF whatever the parameters. -/
theorem zero_outOfRange (p : Params) : (0 : Int) < (p.fMin : Int) ∨ (p.fMaster : Int) < 2 * 0 := by
  have := p.fMinRange.1
  omega

/-- Settles O26: `mute` is SETF with frequency 0, delivered in one word. -/
theorem muteSilencesAValidChannel : Obligations.MuteSilencesAValidChannel := by
  intro s i c hm h0 h127 hlt hc
  have hidx : idxEncodable i = true := decide_eq_true ⟨by omega, h127⟩
  have hword : runEvents (Instr.events (.setf i 0)) s = exec (.setf i 0) s :=
    runEvents_events (Bool.and_eq_true_iff.2 ⟨hidx, by decide⟩) rfl hm
  exact ⟨_, c.silenced, hword.trans (exec_setf_of_outOfRange h0 hlt hc (zero_outOfRange s.params)),
    State.setChannel_self hc, rfl, rfl, rfl, rfl⟩

/-! ## The tick counts written -/

/-- A channel that INIT uses is its pair's. -/
theorem startBank_channel {s : State} {pairs : List ChannelInit} {j : Nat} {x : ChannelInit} {d : Channel}
    (hj : j < (startBank pairs s).count) (hx : pairs[j]? = some x) (hd : (startBank pairs s).ch[j]? = some d) :
    d = initChannel s.params x := by
  have hcap : j < s.params.cap := Nat.lt_of_lt_of_le hj (min_le_right _ _)
  rw [startBank_ch, initBank_getElem?, List.getElem?_take_of_lt hcap, hx] at hd
  split at hd
  case h_1 => cases hd
  case h_2 heq _ => cases heq
  case h_3 heq _ =>
    cases heq
    exact (Option.some.inj hd).symm

/-- Settles O24: INIT writes the converter's value, which the frequency bounds; SETF the converter's value in range. -/
theorem tickCountsWrittenAreInRange : Obligations.TickCountsWrittenAreInRange := by
  refine ⟨fun pairs s t j d x hr h hj hx hd => ?init, fun s t i f d h0 hlt h hd => ?setf⟩
  case init =>
    rw [exec_init_of_not_running hr] at h
    cases h
    obtain rfl := startBank_channel hj hx hd
    have hM := s.params.fMasterRange.1
    by_cases hpos : 0 < x.freq
    · have htph : (initChannel s.params x).tph.toNat = ticksFor x.freq s.params.fMaster := by
        rw [(initChannel_of_pos s.params hpos).2, ticksFor_of_pos hpos]
      have hone := ticksFor_pos hpos hM
      have htwo := (ticksFor_le_iff hpos s.params.fMaster 2).2
      rw [htph]
      refine ⟨.inr ⟨hone, ticksFor_le hpos _, hpos⟩, fun hhigh => ?_⟩
      have hle := htwo (by omega)
      omega
    · exact ⟨.inl ⟨(initChannel_of_nonpos s.params (Int.not_lt.1 hpos)).2, Int.not_lt.1 hpos⟩, fun hhigh => by omega⟩
  case setf =>
    have hch := (setf_effect h).channel i.toNat
    have hv : i = ((i.toNat : Nat) : Int) ∧ i.toNat < s.count := by omega
    rw [hd, commandOnChannel, if_pos hv] at hch
    obtain ⟨c, -, rfl⟩ := Option.map_eq_some_iff.1 hch.symm
    cases hf : freqInRange s.params f with
    | false => exact .inl (by rw [c.setf_of_outOfRange hf, Channel.silenced_tph])
    | true =>
      obtain ⟨hmin, hmax⟩ := freqInRange_iff.1 hf
      have hM := s.params.fMinRange.1
      rw [c.setf_of_inRange hf, Channel.retuned_tph, ticksFor_toNat s.params (by omega)]
      exact .inr (ticksFor_inRange s.params hmin hmax)

/-- Settles O25: INIT with one pair puts it in channel 0, which SETF then selects. -/
theorem frequencyBelowMinimumTonesByInitSilencesBySetf :
    Obligations.FrequencyBelowMinimumTonesByInitSilencesBySetf := by
  intro s p f hr hbank hpos hlow
  have hcap := s.params.capRange.1
  have hc := startBank_used (pairs := [{ pin := p, freq := f }]) hbank hcap rfl
  have hlt : (0 : Int) < ((startBank [{ pin := p, freq := f }] s).count : Int) := by
    rw [startBank_count, List.length_singleton]
    omega
  obtain ⟨hen, htph⟩ := initChannel_of_pos s.params (x := { pin := p, freq := f }) hpos
  have hpositive := ceilDiv_pos s.params.fMasterRange.1 (b := f.toNat) (by omega)
  obtain ⟨u, hu, hd⟩ := exec_setf_channel (i := 0) le_rfl hlt hc f
  have hf : freqInRange s.params f = false := freqInRange_eq_false_iff.2 (.inl hlow)
  rw [startBank_params, Channel.setf_of_outOfRange _ hf] at hd
  exact ⟨_, _, u, _, exec_init_of_not_running hr _, hc, hen, by rw [htph]; exact hpositive, hu, hd, rfl, hen⟩

/-! ## Repeated commands -/

theorem setEnabled_setEnabled (i : Int) (b : Bool) (s : State) :
    setEnabled i b (setEnabled i b s) = setEnabled i b s := by
  obtain ⟨-, h⟩ | ⟨k, c, hsel, h⟩ := setEnabled_cases i b s
  · rw [h, h]
  · obtain ⟨h0, hlt, rfl, hc⟩ := selected_eq_some.1 hsel
    rw [h, setEnabled_of_valid (s := s.setChannel i.toNat (c.withEn b)) b h0 hlt (State.setChannel_self hc),
      State.setChannel_setChannel, Channel.withEn_withEn]

/-- Settles O30: the flag is written again as it is, the counter cleared again, the pin written again. -/
theorem repeatedCommands : Obligations.RepeatedCommands := by
  refine ⟨fun s t i h => ?en, fun s t i h => ?dis, fun s i f c h0 hlt hc => ?setf,
    fun s t u i f c h0 hlt hc hf ht hu => ?twice⟩
  case en =>
    cases h
    exact congrArg Host.Outcome.next (setEnabled_setEnabled i true s)
  case dis =>
    cases h
    exact congrArg Host.Outcome.next (setEnabled_setEnabled i false s)
  case setf =>
    obtain ⟨t, ht, hd⟩ := exec_setf_channel h0 hlt hc f
    refine ⟨t, _, ht, hd, ?_⟩
    unfold Channel.setf
    split <;> rfl
  case twice =>
    rw [exec_setf_of_outOfRange h0 hlt hc (.inl hf)] at ht
    cases ht
    rw [exec_setf_of_outOfRange (s := (s.setChannel i.toNat c.silenced).emit _) h0 hlt (State.setChannel_self hc)
      (.inl hf)] at hu
    cases hu
    exact List.append_assoc _ _ _

/-! ## The enable mask -/

/-- The mask after one flag is written: that bit, and no other. -/
theorem testBit_enMask_setChannel {s : State} {k : Nat} {c : Channel} (hc : s.ch[k]? = some c) (b : Bool) (j : Nat) :
    (enMask (s.setChannel k (c.withEn b)).ch).testBit j = if j = k then b else (enMask s.ch).testBit j := by
  rw [testBit_enMask, testBit_enMask]
  split
  case isTrue hj => rw [hj, State.setChannel_self hc, Option.map_some, Option.getD_some, Channel.withEn_en]
  case isFalse hj => rw [State.setChannel_other hj]

/-- Settles O29: bit by bit. -/
theorem enableMaskChangesOneBit : Obligations.EnableMaskChangesOneBit := by
  intro s i c h0 hlt hc
  refine ⟨_, _, exec_en_of_valid h0 hlt hc, exec_dis_of_valid h0 hlt hc, fun j => ?_, fun j => ?_⟩ <;>
    rw [testBit_enMask_setChannel hc] <;> by_cases hj : j = i.toNat <;> simp [hj]

/-! ## The per-channel state machine -/

/-- INIT of a tone at F_MASTER, two ticks to its first edge event, and DIS of channel 0. -/
def disabledHighEvents : List Event :=
  [.cmd 0x10000001#32, .cmd 0x00301F40#32, .tick, .tick, .cmd 0x40000000#32]

/-- The state those events lead to from reset. -/
def disabledHighState : State :=
  { State.reset with
    running := true
    count := 1
    ch := { pin := 3, tph := 1, cnt := 0, en := false, lvl := .high } :: List.replicate 6 Channel.atReset
    dec := { mode := .idle, total := 1, seen := 1,
             stage := { pin := 3, freq := 8000 } :: List.replicate 6 StageEntry.atReset }
    outputs := [.timerStart 125, .pinWrite 3 .high] }

theorem runEvents_disabledHighEvents : runEvents disabledHighEvents State.reset = .next disabledHighState := by
  rfl

/-- An edge event on channel i in a step with a tick: its flag, its new level, and the write. -/
theorem step_tick_edge {s : State} {i : Nat} {c : Channel} (es : List Event) (hi : i < s.count)
    (hc : s.ch[i]? = some c) (hedge : c.edgeDue = true) :
    ∃ t os, step { s with inputs := .tick :: es } = .next t ∧ t.outputs = s.outputs ++ os ∧
      (t.ch[i]?).map (fun x => (x.en, x.lvl)) = some (c.en, c.toggledLevel) ∧ .pinWrite c.pin c.toggledLevel ∈ os := by
  refine ⟨_, _, rfl, rfl, ?_, pinWrite_mem_tickBankOutputs hi hc hedge⟩
  rw [tickStep_channel, if_pos hi, hc, Option.map_some, c.ticked_of_edge hedge]
  rfl

/-- Settles O46: the table's columns one by one; an edge event's column by the channel's flag and level. -/
theorem channelStateMachineTable : Obligations.ChannelStateMachineTable := by
  refine ⟨fun s t pairs j x d hr h hj hx hd => ?init, fun s i c f g hi hc hmin hmax hg => ?commands,
    fun s i c es hi hc hT hle => ?edge, ?reachable⟩
  case init =>
    rw [exec_init_of_not_running hr] at h
    cases h
    rw [startBank_channel hj hx hd]
    rfl
  case commands =>
    have h0 : (0 : Int) ≤ i := by omega
    have hlt : (i : Int) < s.count := by omega
    have column : ∀ b : Channel, ((s.setChannel i b).ch[i]?).map (fun x => (x.en, x.lvl)) = some (b.en, b.lvl) :=
      fun b => by rw [State.setChannel_self hc, Option.map_some]
    exact ⟨_, _, _, _, exec_en_of_valid h0 hlt hc, exec_dis_of_valid h0 hlt hc, exec_setf_of_outOfRange h0 hlt hc hg,
      exec_setf_of_inRange h0 hlt hc hmin hmax, column _, rfl, column _, rfl, column _, rfl, column _, rfl⟩
  case edge =>
    obtain ⟨t, os, hstep, hout, hpair, hmem⟩ := step_tick_edge es hi hc (c.edgeDue_iff.2 ⟨hT, hle⟩)
    have row : ∀ (e : Bool) (l m : Level), (if e then l.flip else .low) = m → (c.en, c.lvl) = (e, l) →
        (t.ch[i]?).map (fun x => (x.en, x.lvl)) = some (e, m) ∧ .pinWrite c.pin m ∈ os := by
      rintro e l _ rfl heq
      obtain ⟨rfl, rfl⟩ := Prod.mk.inj heq
      exact ⟨hpair, hmem⟩
    exact ⟨t, os, hstep, hout, row _ _ _ rfl, row _ _ _ rfl, row _ _ _ rfl, row _ _ _ rfl⟩
  case reachable =>
    exact ⟨disabledHighEvents, disabledHighState, _, runEvents_disabledHighEvents, Nat.one_pos, rfl, rfl, rfl⟩

end Sys2Proof.Machine
end
